-- ==== Sys2Proof/Word.lean ====
section
/-! DEFINITION. The widths of SIA-CODEC (00_scope.md R6): buffer bytes, 16-bit lengths and checksums, 32-bit bus
registers. -/

namespace Sys2Proof

/-- A buffer byte, and a character of the payload (00_scope.md R6, R9). -/
abbrev Byte := BitVec 8

/-- A checksum, a length or an offset (00_scope.md R6). -/
abbrev Half := BitVec 16

/-- A host-bus register (00_scope.md R6). -/
abbrev Word := BitVec 32

end Sys2Proof
end

