-- ==== Sys2Proof/Config.lean ====
section
/-! DEFINITION. The implementation parameters of 00_scope.md R5. The spec says the model takes them as arguments, so
they are plain data: State carries one `Params`, and a statement about every state is a statement about every choice of
them. No rule leaves a value open (93_implementation_defined.md), so there is no free value here. -/

namespace Sys2Proof

/-- BASE, RX_CAP and TX_CAP (00_scope.md R5). The capacities have the 16 bits of the CAPS register's fields
(10_state.md R32), so that neither can pass 65535. -/
structure Params where
  base  : Nat
  rxCap : Half
  txCap : Half
  deriving DecidableEq, Repr

/-- The legal range of each parameter (00_scope.md R5): BASE aligned to 0x40000, RX_CAP at least 8, TX_CAP at
least 16. -/
abbrev Params.Legal (p : Params) : Prop :=
  p.base % 0x40000 = 0 ∧ 8 ≤ p.rxCap.toNat ∧ 16 ≤ p.txCap.toNat

/-- DESIGN CHOICE (unsafe; assumption 1): the defaults 00_scope.md R5 gives for its test vectors. -/
def Params.default : Params := { base := 0, rxCap := 1024#16, txCap := 1024#16 }

end Sys2Proof
end

