-- ==== Sys2Proof/Machine/State.lean ====
section
/-! DEFINITION. The state of SIA-CODEC as plain data: every register and hidden state of 10_state.md, the three buffers,
and the host's side of the bus. Also the faults, the refusals, and the machine right after reset
(70_reset_and_hazards.md R111). -/

namespace Sys2Proof.Machine

/-- The engine sequencer (10_state.md R33). STATUS.BUSY is 1 exactly when it is `busy`. -/
inductive Eng where
  | idle
  | busy (op : Byte)
  deriving DecidableEq, Repr

/-- The result codes of 60_exceptions.md R99. The codes 0x0A to 0xFF are never produced. -/
inductive ResultCode where
  | ok
  | notAFrame
  | badLengthField
  | rxOverflow
  | noFrame
  | notParsed
  | grammarMismatch
  | txOverflow
  | spanRange
  | illegalCmd
  deriving DecidableEq, Repr

/-- A pair of offset and length: the layout of SPAN, MATCH_SPAN and the field registers (30_encoding.md R57,
10_state.md R23, R27, R28). -/
structure Span where
  off : Half
  len : Half
  deriving DecidableEq, Repr

/-- A pair of checksum and length: the layout of DECL and COMP (10_state.md R24, R25). -/
structure CrcLen where
  crc : Half
  len : Half
  deriving DecidableEq, Repr

/-- TS_DATE (10_state.md R29). -/
structure TsDate where
  year  : Half
  month : Byte
  day   : Byte
  deriving DecidableEq, Repr

/-- TS_TIME (10_state.md R30). -/
structure TsTime where
  hour   : Byte
  minute : Byte
  second : Byte
  deriving DecidableEq, Repr

/-- What DECODE writes and `clear_decode` zeroes: STATUS.FRAME_OK, CRC_MATCH and LEN_MATCH, and the registers DECL
and COMP (10_state.md R17, R24, R25, R35). -/
structure DecodeRegs where
  frameOk  : Bool
  crcMatch : Bool
  lenMatch : Bool
  decl     : CrcLen
  comp     : CrcLen
  deriving DecidableEq, Repr

/-- What PARSE writes and `clear_parse` zeroes: STATUS.PARSED, MATCH and TS_OK, PRESENT, MATCH_SPAN, the eight field
registers, TS_DATE and TS_TIME (10_state.md R17, R26 to R30, R35). -/
structure ParseRegs where
  parsed    : Bool
  matched   : Bool
  tsOk      : Bool
  present   : Byte
  matchSpan : Span
  fId       : Span
  fSeq      : Span
  fRcv      : Span
  fLine     : Span
  fAcct     : Span
  fMdata    : Span
  fExt      : Span
  fTs       : Span
  tsDate    : TsDate
  tsTime    : TsTime
  deriving DecidableEq, Repr

/-- A span of nothing, which an absent field reads as (10_state.md R28). -/
def Span.zero : Span := { off := 0#16, len := 0#16 }

/-- The decode results after `clear_decode` and after reset (10_state.md R35, 70_reset_and_hazards.md R111). -/
def DecodeRegs.cleared : DecodeRegs :=
  { frameOk := false, crcMatch := false, lenMatch := false
    decl := { crc := 0#16, len := 0#16 }, comp := { crc := 0#16, len := 0#16 } }

/-- The parse results after `clear_parse` and after reset (10_state.md R35, 70_reset_and_hazards.md R111). -/
def ParseRegs.cleared : ParseRegs :=
  { parsed := false, matched := false, tsOk := false, present := 0#8
    matchSpan := Span.zero
    fId := Span.zero, fSeq := Span.zero, fRcv := Span.zero, fLine := Span.zero
    fAcct := Span.zero, fMdata := Span.zero, fExt := Span.zero, fTs := Span.zero
    tsDate := { year := 0#16, month := 0#8, day := 0#8 }
    tsTime := { hour := 0#8, minute := 0#8, second := 0#8 } }

/-- A byte buffer: the written bytes by index, in strictly rising order. An index that is not listed is unwritten and
holds no value (10_state.md R34). -/
abbrev Memory := List Host.Cell

/-- Which of the three buffers (10_state.md R38). -/
inductive Buffer where
  | rx
  | tx
  | nb
  deriving DecidableEq, Repr

/-- Which way a bus access goes (60_exceptions.md R100). -/
inductive Direction where
  | read
  | write
  deriving DecidableEq, Repr

/-- One entry of an execution's total order (20_memory.md R50): a host access, the engine's turn, or the platform's
hard reset (70_reset_and_hazards.md R110). -/
inductive Input where
  /-- `MemRead(addr, width)` by the host. -/
  | read (addr width : Nat)
  /-- `MemWrite(addr, width, data)` by the host; a write of width 1 carries its byte in the low 8 bits. -/
  | write (addr width : Nat) (data : Word)
  /-- The engine agent takes its step here, if it has one. -/
  | engine
  /-- The platform asserts hard reset. -/
  | hardReset
  deriving DecidableEq, Repr

/-- What a bus read returns to the host: a register's word or a buffer's byte (20_memory.md R42, R44). -/
inductive BusData where
  | word (w : Word)
  | byte (b : Byte)
  deriving DecidableEq, Repr

/-- The machine. The fields down to `normbuf` are the block's (10_state.md, 70_reset_and_hazards.md R111); `inputs` and
`lastRead` are the host's side of the bus, the model's own (assumptions 3 and 6). -/
structure State where
  /-- BASE, RX_CAP and TX_CAP; CAPS reads the capacities (10_state.md R32). -/
  params   : Params
  /-- ENG (10_state.md R33). -/
  eng      : Eng
  /-- LAST_OP, which a read of CMD returns (10_state.md R16). -/
  lastOp   : Byte
  /-- STATUS.DONE (10_state.md R17). -/
  done     : Bool
  /-- STATUS.RESULT (10_state.md R17, 60_exceptions.md R99). -/
  result   : ResultCode
  /-- CRC.ACC (10_state.md R18). -/
  acc      : Half
  /-- RX_LEN (10_state.md R20). -/
  rxLen    : Half
  /-- TX_PLEN (10_state.md R21). -/
  txPlen   : Half
  /-- TX_LEN (10_state.md R22). -/
  txLen    : Half
  /-- SPAN (10_state.md R23). -/
  span     : Span
  /-- The decode results (10_state.md R17, R24, R25). -/
  dec      : DecodeRegs
  /-- The parse results (10_state.md R17, R26 to R30). -/
  prs      : ParseRegs
  /-- NORM_LEN (10_state.md R31). -/
  normLen  : Half
  /-- RXBUF (10_state.md R38). -/
  rxbuf    : Memory
  /-- TXBUF (10_state.md R38). -/
  txbuf    : Memory
  /-- NORMBUF (10_state.md R38). -/
  normbuf  : Memory
  /-- The rest of the execution's total order, oldest first (20_memory.md R50). -/
  inputs   : List Input
  /-- What the host's most recent bus read returned. -/
  lastRead : Option BusData
  deriving DecidableEq, Repr

/-- The kinds of bus error (20_memory.md R45). -/
inductive BusErrorKind where
  | unmapped
  | width
  | align
  | readOnly
  deriving DecidableEq, Repr

/-- Why the machine stops (60_exceptions.md R100). A fault is never cleared, not even by reset: no step follows it. -/
inductive Fault where
  /-- Raised by a host access the bus does not accept, with its offset and width (20_memory.md R45). Safe. -/
  | busError (a w : Nat) (kind : BusErrorKind)
  /-- Raised by a host access other than a STATUS read while BUSY = 1 (70_reset_and_hazards.md R114). Safe. -/
  | hazardBusy (a : Nat) (dir : Direction)
  /-- Raised by a read, by the host or by a command, of a byte that holds no value (10_state.md R34). Safe. -/
  | uninitRead (buf : Buffer) (i : Nat)
  /-- DESIGN CHOICE (assumption 7): raised by a host access below BASE, which is no access of this block
  (20_memory.md R40). Safe. -/
  | outsideWindow (addr : Nat)
  deriving DecidableEq, Repr

/-- Why the machine gives an instruction no meaning. -/
inductive Refusal where
  /-- Raised by an arm of `exec` that has no meaning yet; no arm is left. Safe. -/
  | notModelled (mnemonic : String)
  deriving DecidableEq, Repr

/-- The machine right after reset (70_reset_and_hazards.md R111) for given parameters, with no input waiting. -/
def State.resetWith (p : Params) : State :=
  { params := p, eng := .idle, lastOp := 0x00#8, done := false, result := .ok
    acc := 0x0000#16, rxLen := 0#16, txPlen := 0#16, txLen := 0#16, span := Span.zero
    dec := DecodeRegs.cleared, prs := ParseRegs.cleared, normLen := 0#16
    rxbuf := [], txbuf := [], normbuf := []
    inputs := [], lastRead := none }

/-- The machine right after reset (70_reset_and_hazards.md R111), with the parameters 00_scope.md R5 names for the
test vectors (assumption 1). -/
def State.reset : State := State.resetWith Params.default

end Sys2Proof.Machine
end

