-- ==== Sys2Proof/Machine/Ops.lean ====
section
/-! DEFINITION. The named operations every command is written over: reading and writing buffer bytes (00_scope.md R10),
issue and `finish` (43_control.md R93, R94), the clear helpers (10_state.md R35) and `reset_state`
(70_reset_and_hazards.md R111). The block takes no traps (60_exceptions.md R102), so there is no exception entry and no
return from one: a fault is the outcome `fault`, raised where a rule writes `raise Fault`. -/

namespace Sys2Proof.Machine

/-- What a step of this machine answers. -/
abbrev Outcome := Host.Outcome State Fault Refusal

/-! ### Buffers -/

/-- The byte at an index, or none where the byte is unwritten (10_state.md R34). -/
def Memory.read : Memory → Nat → Option Byte
  | [], _ => none
  | (a, b) :: m, i => if a = i then some b else Memory.read m i

/-- Write a byte and mark it written (00_scope.md R10), keeping the rising order. -/
def Memory.write : Memory → Nat → Byte → Memory
  | [], i, b => [(i, b)]
  | (a, x) :: m, i, b =>
    if i < a then (i, b) :: (a, x) :: m
    else if i = a then (i, b) :: m
    else (a, x) :: Memory.write m i b

/-- Write a byte string at an index, in order. -/
def Memory.writeBytes : Memory → Nat → List Byte → Memory
  | m, _, [] => m
  | m, i, b :: bs => Memory.writeBytes (m.write i b) (i + 1) bs

/-- The canonical form: indexes strictly rising. -/
abbrev Memory.wf (m : Memory) : Prop := m.Pairwise (fun c d => c.1 < d.1)

/-- Every written byte lies inside a buffer of `cap` bytes (10_state.md R38). -/
abbrev Memory.within (m : Memory) (cap : Nat) : Prop := ∀ c ∈ m, c.1 < cap

/-- The bytes of a buffer from `off`, `n` of them, each read in turn (00_scope.md R10, RXS and TXS): the first that is
unwritten raises UNINIT_READ (10_state.md R34; assumption 10). -/
def Memory.readBytes (buf : Buffer) (m : Memory) : Nat → Nat → Except Fault (List Byte)
  | _, 0 => .ok []
  | off, n + 1 =>
    match m.read off with
    | none => .error (.uninitRead buf off)
    | some b =>
      match Memory.readBytes buf m (off + 1) n with
      | .error f => .error f
      | .ok bs => .ok (b :: bs)

/-- `RXS(off, n)` (00_scope.md R10). -/
def State.rxs (s : State) (off n : Nat) : Except Fault (List Byte) := Memory.readBytes .rx s.rxbuf off n

/-- `TXS(off, n)` (00_scope.md R10). -/
def State.txs (s : State) (off n : Nat) : Except Fault (List Byte) := Memory.readBytes .tx s.txbuf off n

/-- Go on with the bytes a read gave, or stop in the fault it raised: a command that faults writes nothing
(43_control.md R94). -/
def withBytes (r : Except Fault (List Byte)) (k : List Byte → Outcome) : Outcome :=
  match r with
  | .error f => .fault f
  | .ok bs => k bs

/-! ### The command protocol -/

/-- Issue: what a CMD write of opcode `op` does while ENG = IDLE (43_control.md R93). RESULT keeps its code. -/
def State.issue (s : State) (op : Byte) : State :=
  { s with lastOp := op, done := false, eng := .busy op }

/-- `finish(code)`: RESULT <- code, DONE <- 1, ENG <- IDLE (43_control.md R94). -/
def State.finish (s : State) (code : ResultCode) : State :=
  { s with result := code, done := true, eng := .idle }

/-- `clear_parse` (10_state.md R35). -/
def State.clearParse (s : State) : State := { s with prs := ParseRegs.cleared }

/-- `clear_decode`, which includes `clear_parse` (10_state.md R35). -/
def State.clearDecode (s : State) : State :=
  { s with dec := DecodeRegs.cleared, prs := ParseRegs.cleared }

/-- TX_LEN <- 0: TXBUF holds no finished frame (10_state.md R22). -/
def State.clearTxLen (s : State) : State := { s with txLen := 0#16 }

/-- `reset_state()` (70_reset_and_hazards.md R111): every piece of the block's state takes its reset value; the
parameters are constant, and the host's side of the bus is not the block's (assumptions 3 and 6). -/
def State.resetState (s : State) : State :=
  { State.resetWith s.params with inputs := s.inputs, lastRead := s.lastRead }

/-- Take the oldest input off the order. -/
def State.popInput (s : State) : State := { s with inputs := s.inputs.tail }

/-- The host receives what its bus read returned (20_memory.md R42, R44). -/
def State.receive (s : State) (d : BusData) : State := { s with lastRead := some d }

end Sys2Proof.Machine
end

