-- ==== Sys2Proof/Machine/Operands.lean ====
section
/-! DEFINITION. How operands are formed: the bytes of 16-bit values in wire order (20_memory.md R48), hexadecimal
digits and character classes (30_encoding.md R59, R61), and the span operand of CRC_RX and NORMALIZE (40_crc.md R73,
42_parser.md R91). -/

namespace Sys2Proof.Machine

/-! ### Wire order -/

/-- Two bytes, the first the high one: the checksum field of a frame (20_memory.md R48, 30_encoding.md R59). -/
def be16 (hi lo : Byte) : Half := BitVec.ofNat 16 (hi.toNat * 256 + lo.toNat)

/-- `v[15:8]` (30_encoding.md R60). -/
def hiByte (v : Half) : Byte := v.extractLsb' 8 8

/-- `v[7:0]` (30_encoding.md R60). -/
def loByte (v : Half) : Byte := v.extractLsb' 0 8

/-! ### Character classes (30_encoding.md R61) -/

/-- Whether a byte lies between two values, both included. -/
def inRange (lo hi : Nat) (b : Byte) : Bool := decide (lo ≤ b.toNat) && decide (b.toNat ≤ hi)

/-- Class DIGIT. -/
def isDigit (b : Byte) : Bool := inRange 0x30 0x39 b

/-- Class HEX: both letter cases (30_encoding.md R61; D15, D16). -/
def isHex (b : Byte) : Bool := inRange 0x30 0x39 b || inRange 0x41 0x46 b || inRange 0x61 0x66 b

/-- Class WORD: letters, digits and underscore (90_conflicts.md C8). -/
def isWordChar (b : Byte) : Bool :=
  inRange 0x30 0x39 b || inRange 0x41 0x5A b || b == 0x5F#8 || inRange 0x61 0x7A b

/-- Class NOTQUOTE. -/
def isNotQuote (b : Byte) : Bool := b != 0x22#8

/-- Class NOTRBRACKET. -/
def isNotRBracket (b : Byte) : Bool := b != 0x5D#8

/-- Class WS (D22). -/
def isWs (b : Byte) : Bool := inRange 0x09 0x0D b || b == 0x20#8

/-- SEP, the bytes the normaliser collapses: `.` and WS (42_parser.md R90). -/
def isSep (b : Byte) : Bool := b == 0x2E#8 || isWs b

/-- `hexval` (30_encoding.md R59); only ever applied to a HEX byte. -/
def hexval (b : Byte) : Nat :=
  if inRange 0x30 0x39 b then b.toNat - 0x30
  else if inRange 0x41 0x46 b then b.toNat - 0x41 + 10
  else b.toNat - 0x61 + 10

/-- The declared length of four hex digits, the most significant first (30_encoding.md R59). -/
def hex4 (h0 h1 h2 h3 : Byte) : Nat := hexval h0 * 4096 + hexval h1 * 256 + hexval h2 * 16 + hexval h3

/-- The decimal value of a DIGIT byte (42_parser.md R88). -/
def digitVal (b : Byte) : Nat := b.toNat - 0x30

/-! ### Spans -/

/-- The byte `i` of a byte string (00_scope.md R9); only ever applied below its length. -/
def byteAt (s : List Byte) (i : Nat) : Byte := s.getD i 0#8

/-- `s[i..j)` (00_scope.md R9), empty when `j ≤ i`. -/
def slice (s : List Byte) (i j : Nat) : List Byte := (s.drop i).take (j - i)

/-- The bytes `RX[OFF .. OFF+LEN)` a field register spans (10_state.md R28). -/
def State.rxSpan (s : State) (f : Span) : Except Fault (List Byte) := s.rxs f.off.toNat f.len.toNat

/-- The span operand of CRC_RX and NORMALIZE: RX_OVERFLOW, then SPAN_RANGE, then the bytes `RX[OFF .. OFF+CNT)` with
UNINIT_READ (40_crc.md R73, 42_parser.md R91, 60_exceptions.md R101). OFF + CNT is not truncated (30_encoding.md
R57). -/
def withSpanOperand (s : State) (k : List Byte → Outcome) : Outcome :=
  if s.params.rxCap.toNat < s.rxLen.toNat then .next (s.finish .rxOverflow)
  else if s.rxLen.toNat < s.span.off.toNat + s.span.len.toNat then .next (s.finish .spanRange)
  else withBytes (s.rxSpan s.span) k

end Sys2Proof.Machine
end

