-- ==== Sys2Proof/Machine/Flags.lean ====
section
/-! DEFINITION. How flags and fields stand in the 32-bit registers: STATUS (10_state.md R17), the result codes
(60_exceptions.md R99), PRESENT (10_state.md R26), and the packed pairs (10_state.md R23 to R30, R32). -/

namespace Sys2Proof.Machine

/-- The code of a result (60_exceptions.md R99). -/
def ResultCode.code : ResultCode → Byte
  | .ok => 0x00#8
  | .notAFrame => 0x01#8
  | .badLengthField => 0x02#8
  | .rxOverflow => 0x03#8
  | .noFrame => 0x04#8
  | .notParsed => 0x05#8
  | .grammarMismatch => 0x06#8
  | .txOverflow => 0x07#8
  | .spanRange => 0x08#8
  | .illegalCmd => 0x09#8

/-- Whether a command is pending (10_state.md R33). -/
def Eng.isBusy : Eng → Bool
  | .idle => false
  | .busy _ => true

/-- STATUS.BUSY, 1 exactly when ENG = BUSY(op) (10_state.md R33). -/
def State.busy (s : State) : Bool := s.eng.isBusy

/-- STATUS as a word: reserved bits [7:2] and [31:22] read 0 (10_state.md R17). -/
def State.statusWord (s : State) : Word :=
  0#10 ++ BitVec.ofBool s.dec.lenMatch ++ BitVec.ofBool s.dec.crcMatch ++ BitVec.ofBool s.prs.tsOk
    ++ BitVec.ofBool s.prs.matched ++ BitVec.ofBool s.prs.parsed ++ BitVec.ofBool s.dec.frameOk
    ++ s.result.code ++ 0#6 ++ BitVec.ofBool s.done ++ BitVec.ofBool s.busy

/-- CRC_MATCH and LEN_MATCH report a comparison and enforce nothing (41_frame_codec.md R74, R75). -/
def CrcLen.crcEq (comp decl : CrcLen) : Bool := comp.crc == decl.crc

/-- LEN_MATCH (41_frame_codec.md R74). -/
def CrcLen.lenEq (comp decl : CrcLen) : Bool := comp.len == decl.len

/-- PRESENT for a match: ID, SEQ, LINE, ACCT and MDATA always, RCV, EXT and TS where their group took part
(10_state.md R26). -/
def presentBits (rcv ext ts : Bool) : Byte :=
  BitVec.ofBool ts ++ BitVec.ofBool ext ++ 1#1 ++ 1#1 ++ 1#1 ++ BitVec.ofBool rcv ++ 1#1 ++ 1#1

/-- OFF or the checksum in [15:0], the length in [31:16] (30_encoding.md R57, 10_state.md R24). -/
def Span.word (f : Span) : Word := f.len ++ f.off

/-- A SPAN register from the word written to it (10_state.md R23). -/
def Span.ofWord (d : Word) : Span := { off := d.extractLsb' 0 16, len := d.extractLsb' 16 16 }

/-- DECL or COMP as a word (10_state.md R24, R25). -/
def CrcLen.word (c : CrcLen) : Word := c.len ++ c.crc

/-- TS_DATE as a word: YEAR [15:0], MONTH [23:16], DAY [31:24] (10_state.md R29). -/
def TsDate.word (d : TsDate) : Word := d.day ++ d.month ++ d.year

/-- TS_TIME as a word: HOUR [7:0], MINUTE [15:8], SECOND [23:16] (10_state.md R30). -/
def TsTime.word (t : TsTime) : Word := 0#8 ++ t.second ++ t.minute ++ t.hour

/-- CAPS as a word: RX_CAP [15:0], TX_CAP [31:16] (10_state.md R32). -/
def capsWord (p : Params) : Word := p.txCap ++ p.rxCap

end Sys2Proof.Machine
end

