-- ==== Sys2Proof/Machine/Control.lean ====
section
/-! DEFINITION. The control commands: NOP, SRST and the illegal opcodes (43_control.md R96 to R98). -/

namespace Sys2Proof.Machine

/-- NOP (43_control.md R96). -/
def execNop (s : State) : Outcome := .next (s.finish .ok)

/-- SRST: `reset_state()`, without `finish` (43_control.md R97, 70_reset_and_hazards.md R111). -/
def execSrst (s : State) : Outcome := .next s.resetState

/-- An OP outside the opcode map: `finish(ILLEGAL_CMD)`, whatever the OP; LAST_OP holds it since the issue
(43_control.md R98). -/
def execIllegal (_op : Byte) (s : State) : Outcome := .next (s.finish .illegalCmd)

end Sys2Proof.Machine
end

