-- ==== Sys2Proof/Syntax.lean ====
section
/-! DEFINITION. The commands of SIA-CODEC, one constructor per row of the opcode table (30_encoding.md R56). A CMD
command has no operand in its word (R54): it takes its operands from registers when it runs. -/

namespace Sys2Proof

/-- The commands of the opcode map (30_encoding.md R55, R56). -/
inductive Instr where
  /-- NOP, OP 0x00 (43_control.md R96). -/
  | nop
  /-- CRC_INIT, OP 0x01 (40_crc.md R71). -/
  | crcInit
  /-- CRC_RX, OP 0x02 (40_crc.md R73). -/
  | crcRx
  /-- DECODE, OP 0x10 (41_frame_codec.md R74). -/
  | decode
  /-- ENCODE, OP 0x11 (41_frame_codec.md R78). -/
  | encode
  /-- BUILD_ACK, OP 0x12 (41_frame_codec.md R80). -/
  | buildAck
  /-- PARSE, OP 0x20 (42_parser.md R83). -/
  | parse
  /-- NORMALIZE, OP 0x21 (42_parser.md R91). -/
  | normalize
  /-- SRST, OP 0xFF (43_control.md R97). -/
  | srst
  /-- CRC_BYTE, a DIN write carrying one message byte (40_crc.md R72). -/
  | crcByte (byte : Byte)
  /-- A CMD write whose OP is not in the opcode map (43_control.md R98). -/
  | illegal (op : Byte)
  deriving DecidableEq, Repr

end Sys2Proof
end

