-- ==== Sys2Proof/WellFormed.lean ====
section
/-! DEFINITION. Which terms of `Instr` are instructions of the block: `illegal op` is one only for an OP outside the
opcode map (30_encoding.md R56). -/

namespace Sys2Proof

/-- The nine OP values of the opcode map (30_encoding.md R56). -/
def opcodeMap : List Byte :=
  [0x00#8, 0x01#8, 0x02#8, 0x10#8, 0x11#8, 0x12#8, 0x20#8, 0x21#8, 0xFF#8]

/-- The one check a term can fail: an illegal command's OP is not in the opcode map (30_encoding.md R56). -/
def Instr.wellFormed : Instr → Bool
  | .nop => true
  | .crcInit => true
  | .crcRx => true
  | .decode => true
  | .encode => true
  | .buildAck => true
  | .parse => true
  | .normalize => true
  | .srst => true
  | .crcByte _ => true
  | .illegal op => !opcodeMap.contains op

end Sys2Proof
end

