-- ==== Sys2Proof/Decode.lean ====
section
/-! DEFINITION. Commands and bus words. An instruction's encoding is a 32-bit bus write, a pair of register offset and
data (30_encoding.md R54, R55); the block fetches nothing and has no instruction byte order (20_memory.md R49). -/

namespace Sys2Proof

/-- The offset of register CMD (10_state.md R16). -/
def cmdOffset : Nat := 0x000

/-- The offset of register CRC_DIN (10_state.md R19). -/
def dinOffset : Nat := 0x00C

/-- A command as the host sends it: which register it writes, and the 32-bit data (30_encoding.md R54, R55). -/
structure CmdWrite where
  offset : Nat
  data   : Word
  deriving DecidableEq, Repr

/-- Why a bus write is no command. -/
inductive DecodeError where
  /-- A command is a 32-bit write (30_encoding.md R54, R55). -/
  | notAWordWrite (width : Nat)
  /-- Only CMD and CRC_DIN take commands (10_state.md R14). -/
  | notACommandRegister (offset : Nat)
  deriving DecidableEq, Repr

/-- The low byte of a bus word: OP of format CMD, BYTE of format DIN (30_encoding.md R54, R55). -/
def lowByte (d : Word) : Byte := d.extractLsb' 0 8

/-- The opcode map (30_encoding.md R56): every OP outside it is illegal, and none falls through to a neighbour. -/
def decodeOp (op : Byte) : Instr :=
  if op = 0x00#8 then .nop
  else if op = 0x01#8 then .crcInit
  else if op = 0x02#8 then .crcRx
  else if op = 0x10#8 then .decode
  else if op = 0x11#8 then .encode
  else if op = 0x12#8 then .buildAck
  else if op = 0x20#8 then .parse
  else if op = 0x21#8 then .normalize
  else if op = 0xFF#8 then .srst
  else .illegal op

/-- Format CMD: decoding is by OP alone, bits [31:8] are ignored (30_encoding.md R54). -/
def decodeCmd (d : Word) : Instr := decodeOp (lowByte d)

/-- Format DIN: every BYTE is legal, bits [31:8] are ignored (30_encoding.md R55, R56). -/
def decodeDin (d : Word) : Instr := .crcByte (lowByte d)

/-- The command a write of `d`, `width` bytes wide, at register offset `a` sends; any other write is rejected by
name. -/
def decodeWrite (a width : Nat) (d : Word) : Except DecodeError Instr :=
  if width ≠ 4 then .error (.notAWordWrite width)
  else if a = cmdOffset then .ok (decodeCmd d)
  else if a = dinOffset then .ok (decodeDin d)
  else .error (.notACommandRegister a)

/-- The OP of a CMD command (30_encoding.md R56); CRC_BYTE has none. -/
def opOf : Instr → Option Byte
  | .nop => some 0x00#8
  | .crcInit => some 0x01#8
  | .crcRx => some 0x02#8
  | .decode => some 0x10#8
  | .encode => some 0x11#8
  | .buildAck => some 0x12#8
  | .parse => some 0x20#8
  | .normalize => some 0x21#8
  | .srst => some 0xFF#8
  | .crcByte _ => none
  | .illegal op => some op

/-- The CMD write of an OP, its ignored bits zero (30_encoding.md R54). -/
def cmdWrite (op : Byte) : CmdWrite := { offset := cmdOffset, data := op.setWidth 32 }

/-- The DIN write of a byte, its ignored bits zero (30_encoding.md R55). -/
def dinWrite (b : Byte) : CmdWrite := { offset := dinOffset, data := b.setWidth 32 }

/-- The bus write that sends a command (30_encoding.md R54 to R56). -/
def encode : Instr → CmdWrite
  | .nop => cmdWrite 0x00#8
  | .crcInit => cmdWrite 0x01#8
  | .crcRx => cmdWrite 0x02#8
  | .decode => cmdWrite 0x10#8
  | .encode => cmdWrite 0x11#8
  | .buildAck => cmdWrite 0x12#8
  | .parse => cmdWrite 0x20#8
  | .normalize => cmdWrite 0x21#8
  | .srst => cmdWrite 0xFF#8
  | .crcByte b => dinWrite b
  | .illegal op => cmdWrite op

/-- DESIGN CHOICE (safe; assumption 14): the opcode table numbers a CMD row's 8 bits (OP) and the DIN row's 32, and
the register a row is written to is no bit of its word, so the number of bits says which of the two formats a word of
the table has. -/
def isCmdRow (nbits : Nat) : Bool := decide (nbits ≤ 8)

/-- The instruction of an opcode-table word of `nbits` bits; the bits above them are zero, and no command is longer than
one 32-bit word (30_encoding.md R54). -/
def decodeTableWord (nbits w : Nat) : Option Instr :=
  if 2 ^ 32 ≤ w then none
  else if isCmdRow nbits then some (decodeCmd (BitVec.ofNat 32 w))
  else some (decodeDin (BitVec.ofNat 32 w))

end Sys2Proof
end

