-- ==== Sys2Proof/Machine/Crc.lean ====
section
/-! DEFINITION. The operations on the CRC accumulator: CRC_INIT, CRC_BYTE and CRC_RX (40_crc.md R71 to R73). -/

namespace Sys2Proof.Machine

/-- CRC_INIT (40_crc.md R71). -/
def execCrcInit (s : State) : Outcome := .next (State.finish { s with acc := 0x0000#16 } .ok)

/-- CRC_BYTE: a fault while a command is pending; else ACC advances at once, with no BUSY, DONE or RESULT (40_crc.md
R72, 10_state.md R19). -/
def execCrcByte (b : Byte) (s : State) : Outcome :=
  match s.eng with
  | .busy _ => .fault (.hazardBusy dinOffset .write)
  | .idle => .next { s with acc := crcStep s.acc b }

/-- CRC_RX: ACC advances over `RX[OFF .. OFF+CNT)` (40_crc.md R73). -/
def execCrcRx (s : State) : Outcome :=
  withSpanOperand s fun bs => .next (State.finish { s with acc := crcFold s.acc bs } .ok)

end Sys2Proof.Machine
end

