-- ==== Sys2Proof/Machine/Frame.lean ====
section
/-! DEFINITION. The frame codec: DECODE, ENCODE and BUILD_ACK (41_frame_codec.md R74 to R82). -/

namespace Sys2Proof.Machine

/-! ### Inbound frames -/

/-- The payload of an inbound frame: bytes 7 to N-2 (30_encoding.md R58, 41_frame_codec.md R76). -/
def framePayload (f : List Byte) : List Byte := slice f 7 (f.length - 1)

/-- Length and markers of an inbound frame (41_frame_codec.md R74). -/
def isFrame (f : List Byte) : Bool :=
  decide (8 ≤ f.length) && byteAt f 0 == 0x0A#8 && byteAt f (f.length - 1) == 0x0D#8

/-- Whether the length field is four HEX bytes (41_frame_codec.md R74). -/
def lengthFieldOk (f : List Byte) : Bool :=
  isHex (byteAt f 3) && isHex (byteAt f 4) && isHex (byteAt f 5) && isHex (byteAt f 6)

/-- DECL of a frame: the checksum of bytes 1 and 2, the length of the digits at bytes 3 to 6 (30_encoding.md R59). -/
def frameDecl (f : List Byte) : CrcLen :=
  { crc := be16 (byteAt f 1) (byteAt f 2)
    len := BitVec.ofNat 16 (hex4 (byteAt f 3) (byteAt f 4) (byteAt f 5) (byteAt f 6)) }

/-- COMP of a frame: `crc16` and the byte count of its payload (41_frame_codec.md R74). -/
def frameComp (f : List Byte) : CrcLen :=
  { crc := crc16 (framePayload f), len := BitVec.ofNat 16 (f.length - 8) }

/-- The decode results of a frame DECODE accepts (41_frame_codec.md R74). -/
def frameRegs (f : List Byte) : DecodeRegs :=
  { frameOk := true
    crcMatch := (frameComp f).crcEq (frameDecl f)
    lenMatch := (frameComp f).lenEq (frameDecl f)
    decl := frameDecl f
    comp := frameComp f }

/-- DECODE's checks on the bytes it read, in order, and the decode results they lead to (41_frame_codec.md R74). -/
def decodeFrame (f : List Byte) : Except ResultCode DecodeRegs :=
  if !isFrame f then .error .notAFrame
  else if !lengthFieldOk f then .error .badLengthField
  else .ok (frameRegs f)

/-- DECODE (41_frame_codec.md R74): it treats the whole chunk as one frame (R77) and rejects none for a mismatch
(R75). -/
def execDecode (s : State) : Outcome :=
  if s.params.rxCap.toNat < s.rxLen.toNat then .next (s.clearDecode.finish .rxOverflow)
  else withBytes (s.rxs 0 s.rxLen.toNat) fun f =>
    match decodeFrame f with
    | .error code => .next (s.clearDecode.finish code)
    | .ok regs => .next (State.finish { s.clearParse with dec := regs } .ok)

/-! ### Outbound frames -/

/-- The five bytes before the payload of an outbound frame: start marker, checksum and length, both big-endian
(30_encoding.md R60). -/
def frameHeader (p : List Byte) : List Byte :=
  [0x0A#8, hiByte (crc16 p), loByte (crc16 p),
    hiByte (BitVec.ofNat 16 p.length), loByte (BitVec.ofNat 16 p.length)]

/-- The outbound frame of a payload (30_encoding.md R60). -/
def outboundFrame (p : List Byte) : List Byte := frameHeader p ++ p ++ [0x0D#8]

/-- Put the header at `TX[0..5)` and the end marker at `TX[5+L]` round a payload that stands at `TX[5..5+L)`
(41_frame_codec.md R78, R80). -/
def writeEnvelope (tx : Memory) (p : List Byte) : Memory :=
  (tx.writeBytes 0 (frameHeader p)).write (5 + p.length) 0x0D#8

/-- ENCODE (41_frame_codec.md R78). -/
def execEncode (s : State) : Outcome :=
  if s.params.txCap.toNat < s.txPlen.toNat + 6 then .next (s.clearTxLen.finish .txOverflow)
  else withBytes (s.txs 5 s.txPlen.toNat) fun p =>
    .next (State.finish
      { s with txbuf := writeEnvelope s.txbuf p, txLen := BitVec.ofNat 16 (s.txPlen.toNat + 6) } .ok)

/-- The acknowledgment payload of four field strings; the receiver part only where it is not empty (30_encoding.md
R63, 41_frame_codec.md R80). -/
def ackPayload (seq rcv line acct : List Byte) : List Byte :=
  [0x22#8, 0x41#8, 0x43#8, 0x4B#8, 0x22#8] ++ seq ++ (if rcv.length > 0 then 0x52#8 :: rcv else [])
    ++ [0x4C#8] ++ line ++ [0x23#8] ++ acct ++ [0x5B#8, 0x5D#8]

/-- BUILD_ACK's own end: frame an acknowledgment payload into TXBUF, or TX_OVERFLOW (41_frame_codec.md R80). -/
def sendAck (s : State) (a : List Byte) : State :=
  if s.params.txCap.toNat < a.length + 6 then s.clearTxLen.finish .txOverflow
  else State.finish
    { s with
      txbuf := writeEnvelope (s.txbuf.writeBytes 5 a) a
      txPlen := BitVec.ofNat 16 a.length
      txLen := BitVec.ofNat 16 (a.length + 6) } .ok

/-- BUILD_ACK (41_frame_codec.md R80): it reads no match flag, so the acknowledgment is uniform (R81). -/
def execBuildAck (s : State) : Outcome :=
  if !s.dec.frameOk then .next (s.clearTxLen.finish .noFrame)
  else if !s.prs.parsed then .next (s.clearTxLen.finish .notParsed)
  else
    withBytes (s.rxSpan s.prs.fSeq) fun seq =>
    withBytes (s.rxSpan s.prs.fRcv) fun rcv =>
    withBytes (s.rxSpan s.prs.fLine) fun line =>
    withBytes (s.rxSpan s.prs.fAcct) fun acct =>
      .next (sendAck s (ackPayload seq rcv line acct))

end Sys2Proof.Machine
end

