-- ==== Sys2Proof/Machine/Grammar.lean ====
section
/-! DEFINITION. The payload grammar's matcher (30_encoding.md R62, 42_parser.md R84), the timestamp decomposition
(42_parser.md R88), the parse results PARSE reports (42_parser.md R83) and the normaliser (42_parser.md R90). Each is a
pure function of bytes. -/

namespace Sys2Proof.Machine

/-- Where a token stands in the payload: (offset within P, length) (42_parser.md R84). -/
structure Token where
  off : Nat
  len : Nat
  deriving DecidableEq, Repr

/-- What `try` returns: the start and end of the match and its fields (42_parser.md R84). -/
structure Match where
  start : Nat
  stop  : Nat
  id    : Token
  seq   : Token
  rcv   : Option Token
  line  : Token
  acct  : Token
  mdata : Token
  ext   : Option Token
  ts    : Option Token
  deriving DecidableEq, Repr

/-- `run(P, i, C)`: how many bytes of P from `i` on are in class C without a break (00_scope.md R10). -/
def run (p : List Byte) (i : Nat) (c : Byte → Bool) : Nat := ((p.drop i).takeWhile c).length

/-- Whether `P[i]` exists and is the given byte. -/
def isAt (p : List Byte) (i : Nat) (b : Byte) : Bool := p[i]? == some b

/-- id: the opening quote, at least one NOTQUOTE byte, the closing quote (42_parser.md R84). The second component is the
offset after it. -/
def matchId (p : List Byte) (i : Nat) : Option (Token × Nat) :=
  if isAt p i 0x22#8 then
    let k := run p (i + 1) isNotQuote
    if k < 1 ∨ p.length ≤ i + 1 + k then none
    else some (⟨i + 1, k⟩, i + 1 + k + 1)
  else none

/-- seq: four DIGIT bytes (42_parser.md R84). -/
def matchSeq (p : List Byte) (s : Nat) : Option (Token × Nat) :=
  if p.length < s + 4 ∨ ¬ (slice p s (s + 4)).all isDigit then none
  else some (⟨s, 4⟩, s + 4)

/-- receiverGroup: absent unless an `R` stands there; then one to six HEX bytes and an `L` must follow
(42_parser.md R84). -/
def matchRcv (p : List Byte) (t : Nat) : Option (Option Token × Nat) :=
  if isAt p t 0x52#8 then
    let u := run p (t + 1) isHex
    if 1 ≤ u ∧ u ≤ 6 ∧ isAt p (t + 1 + u) 0x4C#8 then some (some ⟨t + 1, u⟩, t + 1 + u)
    else none
  else some (none, t)

/-- lineGroup and the `#` after it: `L`, one to six HEX bytes (42_parser.md R84). -/
def matchLine (p : List Byte) (t : Nat) : Option (Token × Nat) :=
  if isAt p t 0x4C#8 then
    let v := run p (t + 1) isHex
    if 1 ≤ v ∧ v ≤ 6 ∧ isAt p (t + 1 + v) 0x23#8 then some (⟨t + 1, v⟩, t + 1 + v + 1)
    else none
  else none

/-- account and the `[` after it: at least one WORD byte (42_parser.md R84). -/
def matchAcct (p : List Byte) (a : Nat) : Option (Token × Nat) :=
  let w := run p a isWordChar
  if 1 ≤ w ∧ isAt p (a + w) 0x5B#8 then some (⟨a, w⟩, a + w + 1) else none

/-- messageData and the `]` after it: at least one NOTRBRACKET byte (42_parser.md R84). -/
def matchMdata (p : List Byte) (b : Nat) : Option (Token × Nat) :=
  let x := run p b isNotRBracket
  if 1 ≤ x ∧ b + x < p.length then some (⟨b, x⟩, b + x + 1) else none

/-- extGroup, optional: `[`, at least one NOTRBRACKET byte, `]` (42_parser.md R84). -/
def matchExt (p : List Byte) (c : Nat) : Option Token × Nat :=
  if isAt p c 0x5B#8 then
    let y := run p (c + 1) isNotRBracket
    if 1 ≤ y ∧ c + 1 + y < p.length then (some ⟨c + 1, y⟩, c + 1 + y + 1) else (none, c)
  else (none, c)

/-- tsGroup, optional: `_` and every remaining byte, at least one (42_parser.md R84; D20). -/
def matchTs (p : List Byte) (c : Nat) : Option Token × Nat :=
  if c + 1 < p.length ∧ isAt p c 0x5F#8 then (some ⟨c + 1, p.length - (c + 1)⟩, p.length) else (none, c)

/-- `try(P, p)`: the one match that starts at offset `i`, if there is one (42_parser.md R84, R85). -/
def tryMatch (p : List Byte) (i : Nat) : Option Match :=
  match matchId p i with
  | none => none
  | some (id, s) =>
  match matchSeq p s with
  | none => none
  | some (seq, t) =>
  match matchRcv p t with
  | none => none
  | some (rcv, t') =>
  match matchLine p t' with
  | none => none
  | some (line, a) =>
  match matchAcct p a with
  | none => none
  | some (acct, b) =>
  match matchMdata p b with
  | none => none
  | some (mdata, c) =>
    let ext := matchExt p c
    let ts := matchTs p ext.2
    some { start := i, stop := ts.2, id := id, seq := seq, rcv := rcv, line := line, acct := acct
           mdata := mdata, ext := ext.1, ts := ts.1 }

/-- `match(P)`: the leftmost start that matches (42_parser.md R84; D18). -/
def grammarMatch (p : List Byte) : Option Match := (List.range p.length).findSome? (tryMatch p)

/-! ### Timestamp -/

/-- The broken-down fields of a timestamp (42_parser.md R88). -/
structure TsFields where
  hour   : Nat
  minute : Nat
  second : Nat
  month  : Nat
  day    : Nat
  year   : Nat
  deriving DecidableEq, Repr

/-- The offsets of a raw timestamp that must hold a DIGIT (42_parser.md R88). -/
def tsDigitOffsets : List Nat := [0, 1, 3, 4, 6, 7, 9, 10, 12, 13, 15, 16, 17, 18]

/-- Whether a raw timestamp has the exact form `HH:MM:SS,MM-DD-YYYY` (42_parser.md R88; D21). -/
def tsForm (raw : List Byte) : Bool :=
  raw.length == 19 && tsDigitOffsets.all (fun j => isDigit (byteAt raw j))
    && byteAt raw 2 == 0x3A#8 && byteAt raw 5 == 0x3A#8 && byteAt raw 8 == 0x2C#8
    && byteAt raw 11 == 0x2D#8 && byteAt raw 14 == 0x2D#8

/-- Two decimal digits from offset `j` on (42_parser.md R88). -/
def dec2 (raw : List Byte) (j : Nat) : Nat := 10 * digitVal (byteAt raw j) + digitVal (byteAt raw (j + 1))

/-- `ts_decode(raw)`, none where the form does not hold; no range check is made (42_parser.md R88). -/
def tsDecode (raw : List Byte) : Option TsFields :=
  if tsForm raw then
    some { hour := dec2 raw 0, minute := dec2 raw 3, second := dec2 raw 6, month := dec2 raw 9
           day := dec2 raw 12, year := 100 * dec2 raw 15 + dec2 raw 17 }
  else none

/-- The reassembled form `MM-DD-YYYY HH:MM:SS`, which the block does not store (42_parser.md R89). -/
def tsReassembled (raw : List Byte) : List Byte := slice raw 9 19 ++ [0x20#8] ++ slice raw 0 8

/-! ### What PARSE reports -/

/-- A field register from a token: PARSE adds 7, the payload's place in RXBUF (42_parser.md R83, R84). -/
def Span.ofToken (t : Token) : Span := { off := BitVec.ofNat 16 (7 + t.off), len := BitVec.ofNat 16 t.len }

/-- The register of an optional field: (0, 0) where its group did not take part (10_state.md R28). -/
def Span.ofOption : Option Token → Span
  | none => Span.zero
  | some t => Span.ofToken t

/-- The bytes of P that a token covers. -/
def Token.bytes (p : List Byte) (t : Token) : List Byte := slice p t.off (t.off + t.len)

/-- What the timestamp token decodes to; none where it is absent or not of the exact form (42_parser.md R83). The token
is the span F_TS holds, read within the payload (assumption 12). -/
def Match.tsFields (p : List Byte) (m : Match) : Option TsFields :=
  match m.ts with
  | none => none
  | some t => tsDecode (t.bytes p)

/-- TS_OK, TS_DATE and TS_TIME, all 0 where there is no decoded timestamp (10_state.md R29, R30). -/
def ParseRegs.withTs (r : ParseRegs) : Option TsFields → ParseRegs
  | none => r
  | some f =>
    { r with
      tsOk := true
      tsDate := { year := BitVec.ofNat 16 f.year, month := BitVec.ofNat 8 f.month, day := BitVec.ofNat 8 f.day }
      tsTime := { hour := BitVec.ofNat 8 f.hour, minute := BitVec.ofNat 8 f.minute
                  second := BitVec.ofNat 8 f.second } }

/-- The parse results of a match (42_parser.md R83). -/
def Match.regs (p : List Byte) (m : Match) : ParseRegs :=
  ParseRegs.withTs
    { ParseRegs.cleared with
      parsed := true
      matched := true
      present := presentBits m.rcv.isSome m.ext.isSome m.ts.isSome
      matchSpan := { off := BitVec.ofNat 16 (7 + m.start), len := BitVec.ofNat 16 (m.stop - m.start) }
      fId := Span.ofToken m.id
      fSeq := Span.ofToken m.seq
      fRcv := Span.ofOption m.rcv
      fLine := Span.ofToken m.line
      fAcct := Span.ofToken m.acct
      fMdata := Span.ofToken m.mdata
      fExt := Span.ofOption m.ext
      fTs := Span.ofOption m.ts }
    (m.tsFields p)

/-- The parse results of a payload: the match's, or only PARSED = 1 where the grammar does not match (42_parser.md
R83). -/
def parsePayload (p : List Byte) : ParseRegs :=
  match grammarMatch p with
  | none => { ParseRegs.cleared with parsed := true }
  | some m => m.regs p

/-- The result code of PARSE on a payload (42_parser.md R83). -/
def parseCode (p : List Byte) : ResultCode :=
  match grammarMatch p with
  | none => .grammarMismatch
  | some _ => .ok

/-! ### The normaliser -/

/-- `norm`, with whether the byte before was a separator: a maximal run of separators gives one underscore
(42_parser.md R90). -/
def normFrom : Bool → List Byte → List Byte
  | _, [] => []
  | inRun, b :: s =>
    if isSep b then
      if inRun then normFrom true s else 0x5F#8 :: normFrom true s
    else b :: normFrom false s

/-- `norm(s)` (42_parser.md R90; assumption 18). -/
def normBytes (s : List Byte) : List Byte := normFrom false s

end Sys2Proof.Machine
end

