-- ==== Sys2Proof/Machine/Parser.lean ====
section
/-! DEFINITION. The field parser and the account normaliser: PARSE and NORMALIZE (42_parser.md R83, R91). -/

namespace Sys2Proof.Machine

/-- `RXS(7, COMP_LEN)`, the payload of the decoded frame (41_frame_codec.md R76). -/
def State.payload (s : State) : Except Fault (List Byte) := s.rxs 7 s.dec.comp.len.toNat

/-- PARSE (42_parser.md R83). -/
def execParse (s : State) : Outcome :=
  if !s.dec.frameOk then .next (s.clearParse.finish .noFrame)
  else withBytes s.payload fun p =>
    .next (State.finish { s with prs := parsePayload p } (parseCode p))

/-- NORMALIZE: bytes of NORMBUF past the new length keep their values (42_parser.md R91). -/
def execNormalize (s : State) : Outcome :=
  withSpanOperand s fun bs =>
    .next (State.finish
      { s with normbuf := s.normbuf.writeBytes 0 (normBytes bs), normLen := BitVec.ofNat 16 (normBytes bs).length } .ok)

end Sys2Proof.Machine
end

