-- ==== Sys2Proof/Machine/Dispatch.lean ====
section
/-! DEFINITION. One arm per command of the opcode map (30_encoding.md R55, R56). -/

namespace Sys2Proof.Machine

-- What the engine's step runs for a CMD command (43_control.md R94), and what a CRC_DIN write does (40_crc.md R72).
def exec (i : Instr) (s : State) : Host.Outcome State Fault Refusal :=
  match i with
  | .nop => Sys2Proof.Machine.execNop s
  | .crcInit => Sys2Proof.Machine.execCrcInit s
  | .crcRx => Sys2Proof.Machine.execCrcRx s
  | .decode => Sys2Proof.Machine.execDecode s
  | .encode => Sys2Proof.Machine.execEncode s
  | .buildAck => Sys2Proof.Machine.execBuildAck s
  | .parse => Sys2Proof.Machine.execParse s
  | .normalize => Sys2Proof.Machine.execNormalize s
  | .srst => Sys2Proof.Machine.execSrst s
  | .crcByte byte => Sys2Proof.Machine.execCrcByte byte s
  | .illegal op => Sys2Proof.Machine.execIllegal op s

end Sys2Proof.Machine
end

