-- ==== Sys2Proof/Machine/Bus.lean ====
section
/-! DEFINITION. The host's bus accesses (20_memory.md R40 to R47): the address map, the bus errors in the order of
60_exceptions.md R101, the BUSY hazard (70_reset_and_hazards.md R114), and what a register or buffer access does. -/

namespace Sys2Proof.Machine

/-- The 24 registers of 10_state.md R15. -/
inductive Reg where
  | cmd
  | status
  | crc
  | crcDin
  | rxLen
  | txPlen
  | txLen
  | span
  | decl
  | comp
  | present
  | matchSpan
  | fId
  | fSeq
  | fRcv
  | fLine
  | fAcct
  | fMdata
  | fExt
  | fTs
  | tsDate
  | tsTime
  | normLen
  | caps
  deriving DecidableEq, Repr

/-- The registers in the order of their offsets, four bytes apart from 0x000 on (10_state.md R15). -/
def regList : List Reg :=
  [.cmd, .status, .crc, .crcDin, .rxLen, .txPlen, .txLen, .span, .decl, .comp, .present, .matchSpan,
    .fId, .fSeq, .fRcv, .fLine, .fAcct, .fMdata, .fExt, .fTs, .tsDate, .tsTime, .normLen, .caps]

/-- The register at an offset of the register region; none where the offset is no multiple of 4 (20_memory.md
R44). -/
def regAt (a : Nat) : Option Reg := if a % 4 = 0 then regList[a / 4]? else none

/-- Whether a register is RO: CMD and CRC_DIN are W1, and CRC, RX_LEN, TX_PLEN and SPAN are RW (10_state.md R15). -/
def Reg.readOnly : Reg → Bool
  | .cmd => false
  | .crc => false
  | .crcDin => false
  | .rxLen => false
  | .txPlen => false
  | .span => false
  | .status => true
  | .txLen => true
  | .decl => true
  | .comp => true
  | .present => true
  | .matchSpan => true
  | .fId => true
  | .fSeq => true
  | .fRcv => true
  | .fLine => true
  | .fAcct => true
  | .fMdata => true
  | .fExt => true
  | .fTs => true
  | .tsDate => true
  | .tsTime => true
  | .normLen => true
  | .caps => true

/-- A region of the address map, with the index inside a window (20_memory.md R41). -/
inductive Region where
  | registers
  | window (buf : Buffer) (i : Nat)
  | reserved
  deriving DecidableEq, Repr

/-- The address map, by byte offset from BASE (20_memory.md R41). -/
def regionOf (p : Params) (a : Nat) : Region :=
  if a < 0x60 then .registers
  else if 0x10000 ≤ a ∧ a < 0x10000 + p.rxCap.toNat then .window .rx (a - 0x10000)
  else if 0x20000 ≤ a ∧ a < 0x20000 + p.txCap.toNat then .window .tx (a - 0x20000)
  else if 0x30000 ≤ a ∧ a < 0x30000 + p.rxCap.toNat then .window .nb (a - 0x30000)
  else .reserved

/-- What an accepted access reaches: a register, or a byte of a buffer. -/
inductive Target where
  | reg (r : Reg)
  | buf (b : Buffer) (i : Nat)
  deriving DecidableEq, Repr

/-- The bus-error checks of an access at offset `a`, in the order UNMAPPED, WIDTH, ALIGN, READ_ONLY (20_memory.md R45,
60_exceptions.md R101). -/
def busTarget (p : Params) (a w : Nat) (dir : Direction) : Except Fault Target :=
  match regionOf p a with
  | .reserved => .error (.busError a w .unmapped)
  | .registers =>
    if w ≠ 4 then .error (.busError a w .width)
    else
      match regAt a with
      | none => .error (.busError a w .align)
      | some r =>
        if dir = .write ∧ r.readOnly then .error (.busError a w .readOnly) else .ok (.reg r)
  | .window b i =>
    if w ≠ 1 then .error (.busError a w .width)
    else if dir = .write ∧ b = .nb then .error (.busError a w .readOnly)
    else .ok (.buf b i)

/-- A buffer of the state (10_state.md R38). -/
def State.buffer (s : State) : Buffer → Memory
  | .rx => s.rxbuf
  | .tx => s.txbuf
  | .nb => s.normbuf

/-- The model's read of one byte of the address space, by offset from BASE: none where the byte is unwritten or the
offset lies in no window (20_memory.md R41, R42). -/
def State.byteAtOffset (s : State) (a : Nat) : Option Byte :=
  match regionOf s.params a with
  | .window b i => (s.buffer b).read i
  | .registers => none
  | .reserved => none

/-- The value a register read returns (10_state.md R16 to R32); reserved bits read 0. -/
def State.readReg (s : State) : Reg → Word
  | .cmd => s.lastOp.setWidth 32
  | .status => s.statusWord
  | .crc => s.acc.setWidth 32
  | .crcDin => 0#32
  | .rxLen => s.rxLen.setWidth 32
  | .txPlen => s.txPlen.setWidth 32
  | .txLen => s.txLen.setWidth 32
  | .span => s.span.word
  | .decl => s.dec.decl.word
  | .comp => s.dec.comp.word
  | .present => s.prs.present.setWidth 32
  | .matchSpan => s.prs.matchSpan.word
  | .fId => s.prs.fId.word
  | .fSeq => s.prs.fSeq.word
  | .fRcv => s.prs.fRcv.word
  | .fLine => s.prs.fLine.word
  | .fAcct => s.prs.fAcct.word
  | .fMdata => s.prs.fMdata.word
  | .fExt => s.prs.fExt.word
  | .fTs => s.prs.fTs.word
  | .tsDate => s.prs.tsDate.word
  | .tsTime => s.prs.tsTime.word
  | .normLen => s.normLen.setWidth 32
  | .caps => capsWord s.params

/-- The low 16 bits of a bus word: bits [31:16] of a 16-bit register ignore writes (20_memory.md R45). -/
def lowHalf (d : Word) : Half := d.extractLsb' 0 16

/-- What a register write does (20_memory.md R46): CMD issues a command (43_control.md R93), RX_LEN performs
`clear_decode` (10_state.md R20), TX_PLEN clears TX_LEN (R21), CRC and SPAN only store (R18, R23). A CRC_DIN write is
the command CRC_BYTE and does not come here; a read-only register is not reached by a write. -/
def State.writeReg (s : State) (d : Word) : Reg → State
  | .cmd => s.issue (lowByte d)
  | .crc => { s with acc := lowHalf d }
  | .rxLen => State.clearDecode { s with rxLen := lowHalf d }
  | .txPlen => State.clearTxLen { s with txPlen := lowHalf d }
  | .span => { s with span := Span.ofWord d }
  | .crcDin => s
  | .status => s
  | .txLen => s
  | .decl => s
  | .comp => s
  | .present => s
  | .matchSpan => s
  | .fId => s
  | .fSeq => s
  | .fRcv => s
  | .fLine => s
  | .fAcct => s
  | .fMdata => s
  | .fExt => s
  | .fTs => s
  | .tsDate => s
  | .tsTime => s
  | .normLen => s
  | .caps => s

/-- What a buffer write does: RX then `clear_decode`, TX then TX_LEN <- 0 (20_memory.md R42, 10_state.md R35). NORMBUF
is not reached by a write. -/
def State.writeBuf (s : State) (i : Nat) (b : Byte) : Buffer → State
  | .rx => State.clearDecode { s with rxbuf := s.rxbuf.write i b }
  | .tx => State.clearTxLen { s with txbuf := s.txbuf.write i b }
  | .nb => s

/-- While BUSY = 1 the only legal access is a read of STATUS (70_reset_and_hazards.md R114). -/
def hazard (s : State) (t : Target) (dir : Direction) : Bool :=
  s.busy && !(decide (t = .reg .status) && decide (dir = .read))

/-- A host read at offset `a` that passed the bus-error checks (20_memory.md R42, R44): HAZARD_BUSY, then UNINIT_READ,
else the value goes to the host and nothing of the block changes (R46). -/
def readTarget (a : Nat) (t : Target) (s : State) : Outcome :=
  if hazard s t .read then .fault (.hazardBusy a .read)
  else
    match t with
    | .reg r => .next (s.receive (.word (s.readReg r)))
    | .buf b i =>
      match (s.buffer b).read i with
      | none => .fault (.uninitRead b i)
      | some v => .next (s.receive (.byte v))

/-- A host write at offset `a` that passed the bus-error checks and is no CRC_DIN write (20_memory.md R42, R44); a byte
is the low 8 bits of the data (assumption 8). -/
def writeTarget (a : Nat) (t : Target) (d : Word) (s : State) : Outcome :=
  if hazard s t .write then .fault (.hazardBusy a .write)
  else
    match t with
    | .reg r => .next (s.writeReg d r)
    | .buf b i => .next (s.writeBuf i (lowByte d) b)

/-- The offset of a bus address from BASE, or the fault of an address below it (20_memory.md R40; assumption 7). -/
def offsetOf (p : Params) (addr : Nat) : Except Fault Nat :=
  if p.base ≤ addr then .ok (addr - p.base) else .error (.outsideWindow addr)

/-- `MemRead(addr, w)` (20_memory.md R40). -/
def hostRead (addr w : Nat) (s : State) : Outcome :=
  match offsetOf s.params addr with
  | .error f => .fault f
  | .ok a =>
    match busTarget s.params a w .read with
    | .error f => .fault f
    | .ok t => readTarget a t s

end Sys2Proof.Machine
end

