-- ==== Sys2Proof/Machine/Fetch.lean ====
section
/-! DEFINITION. Who moves next, and which command runs. The block fetches nothing (10_state.md R14): its operations are
the host's writes to CMD, which the engine runs at its own step (43_control.md R94), and to CRC_DIN, which run at the
write (10_state.md R19). The total order of host accesses and engine steps (20_memory.md R50) is `State.inputs`. -/

namespace Sys2Proof.Machine

/-- What the next step is: a command that runs on a state, or a turn that runs none, with its outcome. -/
inductive Turn where
  | command (i : Instr) (s : State)
  | other (o : Outcome)

/-- The engine's turn: it runs the pending command, if one is pending (43_control.md R94); with none it has no step and
the turn passes (assumption 4). -/
def engineTurn (s : State) : Turn :=
  match s.eng with
  | .idle => .other (.next s)
  | .busy op => .command (decodeOp op) s

/-- `MemWrite(addr, w, d)` (20_memory.md R40): a write to CRC_DIN is the command CRC_BYTE (40_crc.md R72), every other
write that passes the bus-error checks is done at once. -/
def hostWriteTurn (addr w : Nat) (d : Word) (s : State) : Turn :=
  match offsetOf s.params addr with
  | .error f => .other (.fault f)
  | .ok a =>
    match busTarget s.params a w .write with
    | .error f => .other (.fault f)
    | .ok t =>
      if t = .reg .crcDin then .command (decodeDin d) s else .other (writeTarget a t d s)

/-- Whose turn it is: the oldest input's, or with no input left the engine's, so that a pending command is completed
(43_control.md R95; assumption 4). -/
def nextTurn (s : State) : Turn :=
  match s.inputs with
  | [] => engineTurn s
  | .engine :: _ => engineTurn s.popInput
  | .read addr w :: _ => .other (hostRead addr w s.popInput)
  | .write addr w d :: _ => hostWriteTurn addr w d s.popInput
  | .hardReset :: _ => .other (.next s.popInput.resetState)

/-- Make the next step run the CMD command of opcode `op`: the state its CMD write leaves (43_control.md R93), with the
engine's turn next. -/
def placeCmd (s : State) (op : Byte) : State :=
  { s.issue op with inputs := .engine :: s.inputs }

/-- Make the next step run CRC_BYTE: the host's write of `d` to CRC_DIN comes next (40_crc.md R72). -/
def placeDin (s : State) (d : Word) : State :=
  { s with inputs := .write (s.params.base + dinOffset) 4 d :: s.inputs }

/-- Place the command of an opcode-table word where the next step runs it (assumption 15). -/
def placeTableWord (s : State) (nbits w : Nat) : State :=
  if isCmdRow nbits then placeCmd s (lowByte (BitVec.ofNat 32 w)) else placeDin s (BitVec.ofNat 32 w)

end Sys2Proof.Machine
end

