-- ==== Sys2Proof/Machine/Step.lean ====
section
/-! DEFINITION. One step of the machine: the next entry of the total order of 20_memory.md R50. -/

namespace Sys2Proof.Machine

/-- One step: run the command whose turn it is, or take the turn that runs none. -/
def step (s : State) : Host.Outcome State Fault Refusal :=
  match nextTurn s with
  | .command i t => exec i t
  | .other o => o

/-- `s` with the command of an opcode-table word as what the next step runs (assumption 15). -/
def State.withFetchWord (s : State) (nbits w : Nat) : State := placeTableWord s nbits w

end Sys2Proof.Machine
end

