-- ==== Sys2Proof/Safety.lean ====
section
/-! DEFINITION. What the claims about the whole machine are stated in: the invariants the spec's prose gives the block.
Each is a property of one state, over plain data; that every step keeps it is an obligation. -/

namespace Sys2Proof.Machine

/-- The part every CMD command's rule has in common (its lines "Encoding" and HAZARD_BUSY): OP `op` stands for the command
`i` (30_encoding.md R56), and a CMD write of it while a command is pending faults (43_control.md R93,
70_reset_and_hazards.md R114). -/
structure IssuedBy (op : Byte) (i : Instr) : Prop where
  decodes : decodeOp op = i
  hazard  : ∀ (s : State) (d : Word) (pending : Byte) (rest : List Input), lowByte d = op → s.eng = .busy pending →
    s.inputs = .write (s.params.base + 0x000) 4 d :: rest → step s = .fault (.hazardBusy 0x000 .write)

/-- The buffers are in canonical form, and every written byte lies inside its buffer (10_state.md R34, R38). -/
structure State.BuffersWf (s : State) : Prop where
  rxWf     : s.rxbuf.wf
  txWf     : s.txbuf.wf
  nbWf     : s.normbuf.wf
  rxWithin : s.rxbuf.within s.params.rxCap.toNat
  txWithin : s.txbuf.within s.params.txCap.toNat
  nbWithin : s.normbuf.within s.params.rxCap.toNat

/-- A pending command is the last one written to CMD, and it is not done (10_state.md R16, R17, R33). -/
def State.PendingOk (s : State) : Prop := ∀ op, s.eng = .busy op → s.lastOp = op ∧ s.done = false

/-- The decode results describe the chunk RXBUF holds now, or are all zero (10_state.md R35,
70_reset_and_hazards.md R117). -/
def State.DecodeFresh (s : State) : Prop :=
  (s.dec.frameOk = false → s.dec = DecodeRegs.cleared) ∧
  (s.dec.frameOk = true → s.rxLen.toNat ≤ s.params.rxCap.toNat ∧
    ∃ f, s.rxs 0 s.rxLen.toNat = .ok f ∧ decodeFrame f = .ok s.dec)

/-- The parse results describe the payload RXBUF holds now, or are all zero (10_state.md R35,
70_reset_and_hazards.md R117). -/
def State.ParseFresh (s : State) : Prop :=
  (s.prs.parsed = false → s.prs = ParseRegs.cleared) ∧
  (s.prs.parsed = true → s.dec.frameOk = true ∧ ∃ p, s.payload = .ok p ∧ s.prs = parsePayload p)

/-- No result register describes buffer contents that have changed since (10_state.md R35). -/
def State.Fresh (s : State) : Prop := s.DecodeFresh ∧ s.ParseFresh

/-- TX_LEN is 0, or TXBUF holds the finished frame of the payload TX_PLEN measures (10_state.md R21, R22). -/
def State.TxFresh (s : State) : Prop :=
  s.txLen = 0#16 ∨
  (s.txLen.toNat = s.txPlen.toNat + 6 ∧ s.txLen.toNat ≤ s.params.txCap.toNat ∧
    ∃ p, s.txs 5 s.txPlen.toNat = .ok p ∧ s.txs 0 s.txLen.toNat = .ok (outboundFrame p))

/-- `NB[0..NORM_LEN)` is written, and it holds no separator: it is a normalised identifier (10_state.md R31,
42_parser.md R90). -/
def State.NormFresh (s : State) : Prop :=
  s.normLen.toNat ≤ s.params.rxCap.toNat ∧
  ∃ out, Memory.readBytes .nb s.normbuf 0 s.normLen.toNat = .ok out ∧ ∀ b ∈ out, isSep b = false

/-- A receiver part's text: `R` and the digits, or nothing (30_encoding.md R62). -/
def rcvPart : Option (List Byte) → List Byte
  | none => []
  | some r => 0x52#8 :: r

/-- An extension part's text: the bytes between brackets, or nothing (30_encoding.md R62). -/
def extPart : Option (List Byte) → List Byte
  | none => []
  | some e => 0x5B#8 :: e ++ [0x5D#8]

/-- A timestamp part's text: `_` and the bytes, or nothing (30_encoding.md R62). -/
def tsPart : Option (List Byte) → List Byte
  | none => []
  | some t => 0x5F#8 :: t

/-- The text of an optional receiver part. -/
def rcvText (p : List Byte) (o : Option Token) : List Byte :=
  match o with
  | none => []
  | some t => 0x52#8 :: t.bytes p

/-- The text of an optional extension group. -/
def extText (p : List Byte) (o : Option Token) : List Byte :=
  match o with
  | none => []
  | some t => 0x5B#8 :: t.bytes p ++ [0x5D#8]

/-- The text of an optional timestamp group. -/
def tsText (p : List Byte) (o : Option Token) : List Byte :=
  match o with
  | none => []
  | some t => 0x5F#8 :: t.bytes p

/-- Where the fields of a match stand inside a payload: each one in its place, with the delimiters round it
(30_encoding.md R62). The bytes from the match's start to its end are exactly this string. -/
def Match.text (p : List Byte) (m : Match) : List Byte :=
  [0x22#8] ++ m.id.bytes p ++ [0x22#8] ++ m.seq.bytes p ++ rcvText p m.rcv
    ++ [0x4C#8] ++ m.line.bytes p ++ [0x23#8] ++ m.acct.bytes p ++ [0x5B#8] ++ m.mdata.bytes p ++ [0x5D#8]
    ++ extText p m.ext ++ tsText p m.ts

/-- A byte string of one character class, with a least and a greatest length (30_encoding.md R61, R62). -/
def InClass (c : Byte → Bool) (lo hi : Nat) (s : List Byte) : Prop :=
  lo ≤ s.length ∧ s.length ≤ hi ∧ ∀ b ∈ s, c b = true

/-- The fields of a match have the classes and counts of the grammar (30_encoding.md R62); the payload's own length
bounds the tokens the grammar does not. -/
structure Match.FieldsOk (p : List Byte) (m : Match) : Prop where
  id    : InClass isNotQuote 1 p.length (m.id.bytes p)
  seq   : InClass isDigit 4 4 (m.seq.bytes p)
  rcv   : ∀ t, m.rcv = some t → InClass isHex 1 6 (t.bytes p)
  line  : InClass isHex 1 6 (m.line.bytes p)
  acct  : InClass isWordChar 1 p.length (m.acct.bytes p)
  mdata : InClass isNotRBracket 1 p.length (m.mdata.bytes p)
  ext   : ∀ t, m.ext = some t → InClass isNotRBracket 1 p.length (t.bytes p)
  ts    : ∀ t, m.ts = some t → 1 ≤ (t.bytes p).length ∧ m.stop = p.length

end Sys2Proof.Machine
end

