-- ==== Sys2Proof/Certificates/Slice0/Obligations.lean ====
section
/-! DEFINITION. The statements for the provers, in order: encoding, who moves, the control commands and reset, the
checksum engine, the frame codec, the parser, the normaliser, the bus, frames, and the invariants of the machine. A
statement about a command's result gives the whole next state, so it is the command's frame too. -/

open Sys2Proof Sys2Proof.Machine

/-! ### Encoding -/

/-- 30_encoding.md R54 to R56: decoding the bus write of a command gives the command back; and so it does when bits
[31:8] of the write hold any other value. -/
def Obligations.DecodeEncodeRoundTrip : Prop :=
  ∀ i : Instr, i.wellFormed = true →
    decodeWrite (encode i).offset 4 (encode i).data = .ok i ∧
    ∀ hi : BitVec 24, decodeWrite (encode i).offset 4 (hi ++ lowByte (encode i).data) = .ok i

/-- 30_encoding.md R56: every OP value decodes to an instruction of the block that has this very OP, so none is dropped
and none falls through to a neighbour. -/
def Obligations.EveryOpDecodesToItself : Prop :=
  ∀ op : Byte, (decodeOp op).wellFormed = true ∧ opOf (decodeOp op) = some op ∧
    encode (decodeOp op) = cmdWrite op

/-- 30_encoding.md R55, R56: words written out from the opcode map decode to the commands they stand for. -/
def Obligations.SpecWordsDecode : Prop :=
  decodeCmd 0x00000000#32 = .nop ∧ decodeCmd 0x00000001#32 = .crcInit ∧ decodeCmd 0x00000002#32 = .crcRx ∧
  decodeCmd 0x00000010#32 = .decode ∧ decodeCmd 0x00000011#32 = .encode ∧
  decodeCmd 0x00000012#32 = .buildAck ∧ decodeCmd 0x00000020#32 = .parse ∧
  decodeCmd 0x00000021#32 = .normalize ∧ decodeCmd 0x000000FF#32 = .srst ∧
  decodeCmd 0x00000003#32 = .illegal 0x03#8 ∧ decodeCmd 0x00000013#32 = .illegal 0x13#8 ∧
  decodeCmd 0x000000FE#32 = .illegal 0xFE#8 ∧ decodeDin 0x00000131#32 = .crcByte 0x31#8

/-! ### Who moves -/

/-- 43_control.md R94: when a command is pending, the engine's turn runs exactly it. With no input left the engine's turn
comes too, which is how the model makes a pending command complete (assumption 4). -/
def Obligations.StepRunsPendingCommand : Prop :=
  ∀ (s : State) (op : Byte), s.eng = .busy op →
    (s.inputs = [] ∨ ∃ rest, s.inputs = .engine :: rest) →
    step s = exec (decodeOp op) s.popInput

/-- 30_encoding.md R55, 40_crc.md R72: a host write of 32 bits to CRC_DIN runs CRC_BYTE on its low byte. -/
def Obligations.StepRunsCrcByteWrite : Prop :=
  ∀ (s : State) (d : Word) (rest : List Input),
    s.inputs = .write (s.params.base + 0x00C) 4 d :: rest →
    step s = exec (.crcByte (lowByte d)) s.popInput

/-- 43_control.md R93: a CMD write while IDLE makes its opcode pending, sets LAST_OP, clears DONE and changes nothing
else; while a command is pending it faults. -/
def Obligations.CmdWriteIssues : Prop :=
  ∀ (s : State) (d : Word) (rest : List Input), s.inputs = .write (s.params.base + 0x000) 4 d :: rest →
    (s.eng = .idle → step s = .next { s with
      inputs := rest, lastOp := lowByte d, done := false, eng := .busy (lowByte d) }) ∧
    (∀ op, s.eng = .busy op → step s = .fault (.hazardBusy 0x000 .write))

/-- The model's choice (assumptions 4 and 5): with no command pending, an engine's turn passes, and with no input left
the machine waits. -/
def Obligations.EngineWithoutCommandWaits : Prop :=
  ∀ s : State, s.eng = .idle → (s.inputs = [] ∨ ∃ rest, s.inputs = .engine :: rest) →
    step s = .next s.popInput

/-- 43_control.md R95: an engine turn completes the pending command in one step, or faults on a byte that holds no value.
That the engine's turn comes too once no input is left is the model's choice (assumption 4). -/
def Obligations.PendingCommandCompletes : Prop :=
  ∀ (s : State) (op : Byte), s.eng = .busy op →
    (s.inputs = [] ∨ ∃ rest, s.inputs = .engine :: rest) →
    (∃ t, step s = .next t ∧ t.eng = .idle) ∨ ∃ buf i, step s = .fault (.uninitRead buf i)

/-- 20_memory.md R50, R51: what a command does is the same wherever its engine step falls among the host's STATUS reads;
the last read returns the STATUS of the completed command. -/
def Obligations.EngineStepPositionFree : Prop :=
  ∀ (s t : State) (op : Byte) (early late : Nat), s.eng = .busy op →
    exec (decodeOp op) { s with inputs := [] } = .next t →
    Host.Core.run Sys2Proof.core (early + 1 + (late + 1))
      { s with inputs := List.replicate early (.read (s.params.base + 0x004) 4) ++
          .engine :: List.replicate (late + 1) (.read (s.params.base + 0x004) 4) }
    = .next { t with inputs := [], lastRead := some (.word t.statusWord) }

/-! ### Control commands and reset -/

/-- 43_control.md R96: NOP completes with OK and changes no other state. -/
def Obligations.NopResult : Prop :=
  IssuedBy 0x00#8 .nop ∧
  ∀ s : State, exec .nop s = .next { s with result := .ok, done := true, eng := .idle }

/-- 43_control.md R98: an illegal OP completes with ILLEGAL_CMD (code 0x09) and changes no other state. -/
def Obligations.IllegalResult : Prop :=
  ∀ (op : Byte) (s : State),
    (op ∉ [0x00#8, 0x01#8, 0x02#8, 0x10#8, 0x11#8, 0x12#8, 0x20#8, 0x21#8, 0xFF#8] → IssuedBy op (.illegal op)) ∧
    exec (.illegal op) s = .next { s with result := .illegalCmd, done := true, eng := .idle } ∧
    ResultCode.code .illegalCmd = 0x09#8

/-- 43_control.md R97, 70_reset_and_hazards.md R111: SRST sets every piece of the block's state to its reset value; the
parameters are constant, and that the host's side of the bus is not touched is the model's choice (assumptions 3, 6). -/
def Obligations.SrstResult : Prop :=
  IssuedBy 0xFF#8 .srst ∧
  ∀ s : State, exec .srst s = .next
    { params := s.params, eng := .idle, lastOp := 0x00#8, done := false, result := .ok
      acc := 0x0000#16, rxLen := 0#16, txPlen := 0#16, txLen := 0#16
      span := { off := 0#16, len := 0#16 }
      dec := { frameOk := false, crcMatch := false, lenMatch := false
               decl := { crc := 0#16, len := 0#16 }, comp := { crc := 0#16, len := 0#16 } }
      prs := { parsed := false, matched := false, tsOk := false, present := 0#8
               matchSpan := { off := 0#16, len := 0#16 }
               fId := { off := 0#16, len := 0#16 }, fSeq := { off := 0#16, len := 0#16 }
               fRcv := { off := 0#16, len := 0#16 }, fLine := { off := 0#16, len := 0#16 }
               fAcct := { off := 0#16, len := 0#16 }, fMdata := { off := 0#16, len := 0#16 }
               fExt := { off := 0#16, len := 0#16 }, fTs := { off := 0#16, len := 0#16 }
               tsDate := { year := 0#16, month := 0#8, day := 0#8 }
               tsTime := { hour := 0#8, minute := 0#8, second := 0#8 } }
      normLen := 0#16, rxbuf := [], txbuf := [], normbuf := []
      inputs := s.inputs, lastRead := s.lastRead }

/-- 70_reset_and_hazards.md R111: after reset, whatever the parameters, every register but CAPS reads 0, CAPS reads the
capacities, the engine is IDLE, and no byte of the address space holds a value. -/
def Obligations.ResetReads : Prop :=
  ∀ p : Params,
    (∀ r : Reg, r ≠ .caps → (State.resetWith p).readReg r = 0#32) ∧
    (State.resetWith p).readReg .caps = p.txCap ++ p.rxCap ∧
    (State.resetWith p).eng = .idle ∧
    (∀ a, (State.resetWith p).byteAtOffset a = none)

/-- 70_reset_and_hazards.md R110, R112: a hard reset in any state, a command pending or not, leaves the reset state, in
which STATUS reads 0, and nothing of a pending command appears; that the host's side of the bus is kept is the model's
choice (assumptions 3 and 6). -/
def Obligations.HardResetAborts : Prop :=
  ∀ (s : State) (rest : List Input), s.inputs = .hardReset :: rest →
    step s = .next { State.resetWith s.params with inputs := rest, lastRead := s.lastRead } ∧
    (State.resetWith s.params).statusWord = 0x00000000#32

/-! ### The checksum engine -/

/-- 40_crc.md R66: the construction of the table gives the 256 entries the rule lists. -/
def Obligations.CrcTableAsListed : Prop :=
  crcTableListed.length = 256 ∧ ∀ i : Fin 256, crcTableListed[i.val]? = some (crcTable (BitVec.ofNat 8 i.val))

/-- 40_crc.md R65, R66, R67: one step of the checksum over a byte is eight shifts of the reflected polynomial over the
accumulator with the byte XORed into its low half: the table computes what the bit-serial form does. -/
def Obligations.CrcStepIsBitSerial : Prop :=
  ∀ (c : Half) (b : Byte), crcStep c b = crcShifts 8 (c ^^^ b.setWidth 16)

/-- 40_crc.md R71: CRC_INIT sets the accumulator to 0x0000 and completes with OK. -/
def Obligations.CrcInitResult : Prop :=
  IssuedBy 0x01#8 .crcInit ∧
  ∀ s : State, exec .crcInit s = .next { s with acc := 0x0000#16, result := .ok, done := true, eng := .idle }

/-- 40_crc.md R72: CRC_BYTE, the command and the host write that sends it, advances the accumulator at once by the low
byte of the data, and sets no flag; while a command is pending it faults. -/
def Obligations.CrcByteResult : Prop :=
  ∀ s : State,
    (∀ b, (s.eng = .idle → exec (.crcByte b) s = .next { s with acc := crcStep s.acc b }) ∧
      (∀ op, s.eng = .busy op → exec (.crcByte b) s = .fault (.hazardBusy 0x00C .write))) ∧
    (∀ (d : Word) (rest : List Input), s.inputs = .write (s.params.base + 0x00C) 4 d :: rest →
      (s.eng = .idle → step s = .next { s with inputs := rest, acc := crcStep s.acc (d.extractLsb' 0 8) }) ∧
      (∀ op, s.eng = .busy op → step s = .fault (.hazardBusy 0x00C .write)))

/-- 40_crc.md R73: CRC_RX ends in RX_OVERFLOW, then in SPAN_RANGE, with no other effect; else it faults on the first
unwritten byte of the span, or advances the accumulator over the span and completes with OK. -/
def Obligations.CrcRxResult : Prop :=
  IssuedBy 0x02#8 .crcRx ∧
  ∀ s : State,
    (s.params.rxCap.toNat < s.rxLen.toNat →
      exec .crcRx s = .next { s with result := .rxOverflow, done := true, eng := .idle }) ∧
    (s.rxLen.toNat ≤ s.params.rxCap.toNat → s.rxLen.toNat < s.span.off.toNat + s.span.len.toNat →
      exec .crcRx s = .next { s with result := .spanRange, done := true, eng := .idle }) ∧
    (s.rxLen.toNat ≤ s.params.rxCap.toNat → s.span.off.toNat + s.span.len.toNat ≤ s.rxLen.toNat →
      (∀ bs, s.rxs s.span.off.toNat s.span.len.toNat = .ok bs →
        exec .crcRx s = .next
          { s with acc := bs.foldl crcStep s.acc, result := .ok, done := true, eng := .idle }) ∧
      (∀ f, s.rxs s.span.off.toNat s.span.len.toNat = .error f → exec .crcRx s = .fault f))

/-- 40_crc.md R70: feeding a span in two pieces through CRC_RX leaves the state one pass over it leaves, but for SPAN. -/
def Obligations.CrcRxStreams : Prop :=
  ∀ (s t : State) (o n k : Half), o.toNat + n.toNat + k.toNat < 65536 →
    exec .crcRx { s with span := { off := o, len := n + k } } = .next t → t.result = .ok →
    ∃ u, exec .crcRx { s with span := { off := o, len := n } } = .next u ∧
      exec .crcRx { u with span := { off := o + n, len := k } } =
        .next { t with span := { off := o + n, len := k } }

/-! ### Reading a buffer -/

/-- 10_state.md R34: reading a byte string faults exactly where a byte is unwritten, and the fault names the first
(the order is DEDUCED, assumption 10). -/
def Obligations.ReadBytesFaultsOnFirstUnwritten : Prop :=
  ∀ (buf : Buffer) (m : Memory) (off n : Nat) (f : Fault),
    Memory.readBytes buf m off n = .error f ↔
      ∃ i < n, m.read (off + i) = none ∧ (∀ j < i, m.read (off + j) ≠ none) ∧ f = .uninitRead buf (off + i)

/-! ### The frame codec -/

/-- 41_frame_codec.md R74, 30_encoding.md R58, R59: DECODE of a chunk that has the layout of an inbound frame, whatever
its payload and its declared values, reports both pairs, compares them, clears the parse results and completes with
OK. -/
def Obligations.DecodeAccepts : Prop :=
  ∀ (s : State) (c1 c0 h0 h1 h2 h3 : Byte) (p : List Byte),
    s.rxLen.toNat ≤ s.params.rxCap.toNat →
    s.rxs 0 s.rxLen.toNat = .ok ([0x0A#8, c1, c0, h0, h1, h2, h3] ++ p ++ [0x0D#8]) →
    isHex h0 = true → isHex h1 = true → isHex h2 = true → isHex h3 = true →
    exec .decode s = .next { s with
      dec := { frameOk := true
               crcMatch := decide (crc16 p = BitVec.ofNat 16 (c1.toNat * 256 + c0.toNat))
               lenMatch := decide (p.length =
                 hexval h0 * 4096 + hexval h1 * 256 + hexval h2 * 16 + hexval h3)
               decl := { crc := BitVec.ofNat 16 (c1.toNat * 256 + c0.toNat)
                         len := BitVec.ofNat 16
                           (hexval h0 * 4096 + hexval h1 * 256 + hexval h2 * 16 + hexval h3) }
               comp := { crc := crc16 p, len := BitVec.ofNat 16 p.length } }
      prs := ParseRegs.cleared, result := .ok, done := true, eng := .idle }

/-- 41_frame_codec.md R74, 60_exceptions.md R101: DECODE's result codes in their order, each with every decode and parse
result cleared, and its fault on an unwritten byte of the chunk. -/
def Obligations.DecodeRejects : Prop :=
  IssuedBy 0x10#8 .decode ∧
  ∀ s : State,
    (s.params.rxCap.toNat < s.rxLen.toNat →
      exec .decode s = .next { s with
        dec := DecodeRegs.cleared, prs := ParseRegs.cleared, result := .rxOverflow, done := true, eng := .idle }) ∧
    (s.rxLen.toNat ≤ s.params.rxCap.toNat →
      (∀ f, s.rxs 0 s.rxLen.toNat = .error f → exec .decode s = .fault f) ∧
      (∀ f, s.rxs 0 s.rxLen.toNat = .ok f →
        (f.length < 8 ∨ f[0]? ≠ some 0x0A#8 ∨ f[f.length - 1]? ≠ some 0x0D#8 →
          exec .decode s = .next { s with
            dec := DecodeRegs.cleared, prs := ParseRegs.cleared, result := .notAFrame, done := true
            eng := .idle }) ∧
        (8 ≤ f.length → f[0]? = some 0x0A#8 → f[f.length - 1]? = some 0x0D#8 →
          (∃ i b, 3 ≤ i ∧ i < 7 ∧ f[i]? = some b ∧ isHex b = false) →
          exec .decode s = .next { s with
            dec := DecodeRegs.cleared, prs := ParseRegs.cleared, result := .badLengthField, done := true
            eng := .idle })))

/-- 41_frame_codec.md R78: ENCODE of a frame that would pass TX_CAP ends in TX_OVERFLOW with TX_LEN = 0 and no other
effect; else it faults on an unwritten payload byte, or frames the payload at `TX[5..5+L)`: the bytes `TX[0..L+6)` are
then the outbound frame of 30_encoding.md R60, byte for byte, TX_LEN is L + 6, and nothing else changes. -/
def Obligations.EncodeResult : Prop :=
  IssuedBy 0x11#8 .encode ∧
  ∀ s : State,
    (s.params.txCap.toNat < s.txPlen.toNat + 6 →
      exec .encode s = .next { s with txLen := 0#16, result := .txOverflow, done := true, eng := .idle }) ∧
    (s.txPlen.toNat + 6 ≤ s.params.txCap.toNat →
      (∀ f, s.txs 5 s.txPlen.toNat = .error f → exec .encode s = .fault f) ∧
      (∀ p, s.txs 5 s.txPlen.toNat = .ok p →
        ∃ t, exec .encode s = .next t ∧
          t = { s with txbuf := t.txbuf, txLen := t.txLen, result := .ok, done := true, eng := .idle } ∧
          t.txLen.toNat = s.txPlen.toNat + 6 ∧
          t.txs 0 (s.txPlen.toNat + 6) = .ok
            ([0x0A#8, (crc16 p).extractLsb' 8 8, (crc16 p).extractLsb' 0 8,
              s.txPlen.extractLsb' 8 8, s.txPlen.extractLsb' 0 8] ++ p ++ [0x0D#8]) ∧
          ∀ j, s.txPlen.toNat + 6 ≤ j → t.txbuf.read j = s.txbuf.read j))

/-- 41_frame_codec.md R79: after an ENCODE with RESULT = OK, the fields of the outbound frame read back the payload, its
checksum and its length; and an inbound frame that carries the checksum and the length of its payload decodes to that
payload, with CRC_MATCH and LEN_MATCH. -/
def Obligations.FrameRoundTrip : Prop :=
  (∀ s t : State, exec .encode s = .next t → t.result = .ok →
    ∃ p b1 b2 b3 b4, s.txs 5 s.txPlen.toNat = .ok p ∧ t.txs 5 s.txPlen.toNat = .ok p ∧
      t.txbuf.read 0 = some 0x0A#8 ∧ t.txbuf.read 1 = some b1 ∧ t.txbuf.read 2 = some b2 ∧
      t.txbuf.read 3 = some b3 ∧ t.txbuf.read 4 = some b4 ∧
      t.txbuf.read (5 + s.txPlen.toNat) = some 0x0D#8 ∧
      b1.toNat * 256 + b2.toNat = (crc16 p).toNat ∧ b3.toNat * 256 + b4.toNat = s.txPlen.toNat ∧
      p.length = s.txPlen.toNat) ∧
  (∀ (s : State) (h0 h1 h2 h3 : Byte) (p : List Byte),
    s.rxLen.toNat ≤ s.params.rxCap.toNat →
    s.rxs 0 s.rxLen.toNat =
      .ok ([0x0A#8, (crc16 p).extractLsb' 8 8, (crc16 p).extractLsb' 0 8, h0, h1, h2, h3] ++ p ++ [0x0D#8]) →
    isHex h0 = true → isHex h1 = true → isHex h2 = true → isHex h3 = true →
    hexval h0 * 4096 + hexval h1 * 256 + hexval h2 * 16 + hexval h3 = p.length →
    ∃ t, exec .decode s = .next t ∧ t.rxs 7 t.dec.comp.len.toNat = .ok p ∧ t.dec.comp.crc = crc16 p ∧
      t.dec.crcMatch = true ∧ t.dec.lenMatch = true)

/-- 41_frame_codec.md R80, 30_encoding.md R63: BUILD_ACK with no decoded frame ends in NO_FRAME, with no PARSE since the
DECODE in NOT_PARSED, and with a frame that would pass TX_CAP in TX_OVERFLOW, each with TX_LEN = 0 and no other effect;
else it composes the acknowledgment of the parsed fields and frames it: the bytes `TX[0..|a|+6)` are the outbound frame
of the payload a, TX_PLEN and TX_LEN measure it, and nothing else changes. -/
def Obligations.BuildAckResult : Prop :=
  IssuedBy 0x12#8 .buildAck ∧
  ∀ s : State,
    (s.dec.frameOk = false →
      exec .buildAck s = .next { s with txLen := 0#16, result := .noFrame, done := true, eng := .idle }) ∧
    (s.dec.frameOk = true → s.prs.parsed = false →
      exec .buildAck s = .next { s with txLen := 0#16, result := .notParsed, done := true, eng := .idle }) ∧
    (∀ seq rcv line acct a : List Byte, s.dec.frameOk = true → s.prs.parsed = true →
      s.rxs s.prs.fSeq.off.toNat s.prs.fSeq.len.toNat = .ok seq →
      s.rxs s.prs.fRcv.off.toNat s.prs.fRcv.len.toNat = .ok rcv →
      s.rxs s.prs.fLine.off.toNat s.prs.fLine.len.toNat = .ok line →
      s.rxs s.prs.fAcct.off.toNat s.prs.fAcct.len.toNat = .ok acct →
      a = [0x22#8, 0x41#8, 0x43#8, 0x4B#8, 0x22#8] ++ seq ++ (if rcv = [] then [] else [0x52#8] ++ rcv)
        ++ [0x4C#8] ++ line ++ [0x23#8] ++ acct ++ [0x5B#8, 0x5D#8] →
      (s.params.txCap.toNat < a.length + 6 →
        exec .buildAck s = .next { s with txLen := 0#16, result := .txOverflow, done := true, eng := .idle }) ∧
      (a.length + 6 ≤ s.params.txCap.toNat →
        ∃ t, exec .buildAck s = .next t ∧
          t = { s with
            txbuf := t.txbuf, txPlen := t.txPlen, txLen := t.txLen, result := .ok, done := true, eng := .idle } ∧
          t.txPlen.toNat = a.length ∧ t.txLen.toNat = a.length + 6 ∧
          t.txs 0 (a.length + 6) = .ok
            ([0x0A#8, (crc16 a).extractLsb' 8 8, (crc16 a).extractLsb' 0 8,
              t.txPlen.extractLsb' 8 8, t.txPlen.extractLsb' 0 8] ++ a ++ [0x0D#8]) ∧
          ∀ j, a.length + 6 ≤ j → t.txbuf.read j = s.txbuf.read j))

/-- 41_frame_codec.md R81: BUILD_ACK reads neither CRC_MATCH, LEN_MATCH, MATCH nor TS_OK: whatever they are, it does the
same. -/
def Obligations.AcknowledgmentIsUniform : Prop :=
  ∀ (s : State) (cm lm mt ts : Bool),
    (∀ t, exec .buildAck s = .next t →
      exec .buildAck { s with
        dec := { s.dec with crcMatch := cm, lenMatch := lm }
        prs := { s.prs with matched := mt, tsOk := ts } } =
      .next { t with
        dec := { t.dec with crcMatch := cm, lenMatch := lm }
        prs := { t.prs with matched := mt, tsOk := ts } }) ∧
    (∀ f, exec .buildAck s = .fault f →
      exec .buildAck { s with
        dec := { s.dec with crcMatch := cm, lenMatch := lm }
        prs := { s.prs with matched := mt, tsOk := ts } } = .fault f)

/-- 10_state.md R18: DECODE, ENCODE, BUILD_ACK, PARSE and NORMALIZE never read or write the CRC accumulator. -/
def Obligations.CodecIgnoresAccumulator : Prop :=
  ∀ (i : Instr) (s : State) (c : Half),
    i = .decode ∨ i = .encode ∨ i = .buildAck ∨ i = .parse ∨ i = .normalize →
    (∀ t, exec i s = .next t → t.acc = s.acc ∧ exec i { s with acc := c } = .next { t with acc := c }) ∧
    (∀ f, exec i s = .fault f → exec i { s with acc := c } = .fault f)

/-! ### The parser -/

/-- 42_parser.md R83: PARSE with no decoded frame ends in NO_FRAME and clears the parse results; on a payload the grammar
does not match it ends in GRAMMAR_MISMATCH with PARSED = 1 and every field empty; on a match it reports every field, 7
added to each offset, the timestamp's fields where it decodes, and completes with OK. -/
def Obligations.ParseResult : Prop :=
  IssuedBy 0x20#8 .parse ∧
  ∀ s : State,
    (s.dec.frameOk = false → exec .parse s = .next { s with
      prs := ParseRegs.cleared, result := .noFrame, done := true, eng := .idle }) ∧
    (s.dec.frameOk = true → ∀ p, s.rxs 7 s.dec.comp.len.toNat = .ok p →
      (grammarMatch p = none → exec .parse s = .next { s with
        prs := { ParseRegs.cleared with parsed := true }, result := .grammarMismatch, done := true
        eng := .idle }) ∧
      (∀ m, grammarMatch p = some m → exec .parse s = .next { s with
        prs :=
          { parsed := true, matched := true
            tsOk := (m.ts.bind fun t => tsDecode (t.bytes p)).isSome
            present := 0x3B#8 ||| (if m.rcv.isSome then 0x04#8 else 0#8)
              ||| (if m.ext.isSome then 0x40#8 else 0#8) ||| (if m.ts.isSome then 0x80#8 else 0#8)
            matchSpan := { off := BitVec.ofNat 16 (7 + m.start), len := BitVec.ofNat 16 (m.stop - m.start) }
            fId := { off := BitVec.ofNat 16 (7 + m.id.off), len := BitVec.ofNat 16 m.id.len }
            fSeq := { off := BitVec.ofNat 16 (7 + m.seq.off), len := BitVec.ofNat 16 m.seq.len }
            fRcv := match m.rcv with
              | none => { off := 0#16, len := 0#16 }
              | some t => { off := BitVec.ofNat 16 (7 + t.off), len := BitVec.ofNat 16 t.len }
            fLine := { off := BitVec.ofNat 16 (7 + m.line.off), len := BitVec.ofNat 16 m.line.len }
            fAcct := { off := BitVec.ofNat 16 (7 + m.acct.off), len := BitVec.ofNat 16 m.acct.len }
            fMdata := { off := BitVec.ofNat 16 (7 + m.mdata.off), len := BitVec.ofNat 16 m.mdata.len }
            fExt := match m.ext with
              | none => { off := 0#16, len := 0#16 }
              | some t => { off := BitVec.ofNat 16 (7 + t.off), len := BitVec.ofNat 16 t.len }
            fTs := match m.ts with
              | none => { off := 0#16, len := 0#16 }
              | some t => { off := BitVec.ofNat 16 (7 + t.off), len := BitVec.ofNat 16 t.len }
            tsDate := match m.ts.bind fun t => tsDecode (t.bytes p) with
              | none => { year := 0#16, month := 0#8, day := 0#8 }
              | some f => { year := BitVec.ofNat 16 f.year, month := BitVec.ofNat 8 f.month
                            day := BitVec.ofNat 8 f.day }
            tsTime := match m.ts.bind fun t => tsDecode (t.bytes p) with
              | none => { hour := 0#8, minute := 0#8, second := 0#8 }
              | some f => { hour := BitVec.ofNat 8 f.hour, minute := BitVec.ofNat 8 f.minute
                            second := BitVec.ofNat 8 f.second } }
        result := .ok, done := true, eng := .idle }))

/-- 42_parser.md R84: the match is the one at the leftmost offset where the grammar matches, and there is none exactly
where it matches at no offset. -/
def Obligations.MatchIsLeftmost : Prop :=
  ∀ p : List Byte,
    (grammarMatch p = none ↔ ∀ i < p.length, tryMatch p i = none) ∧
    (∀ m, grammarMatch p = some m ↔
      ∃ i < p.length, tryMatch p i = some m ∧ ∀ j < i, tryMatch p j = none)

/-- 42_parser.md R84, 30_encoding.md R62: what the matcher returns is a match of the grammar: the bytes it covers are the
fields with the grammar's delimiters round them, in the grammar's order; each field has its class and count, and stands
where the one before it and the delimiter between them end. -/
def Obligations.MatcherSound : Prop :=
  ∀ (p : List Byte) (i : Nat) (m : Match), tryMatch p i = some m →
    (m.start = i ∧ i < m.stop ∧ m.stop ≤ p.length ∧ slice p i m.stop = m.text p ∧ m.FieldsOk p) ∧
    m.id.off = i + 1 ∧ m.seq.off = m.id.off + m.id.len + 1 ∧ m.seq.len = 4 ∧
    (m.rcv = none → m.line.off = m.seq.off + m.seq.len + 1) ∧
    (∀ r, m.rcv = some r → r.off = m.seq.off + m.seq.len + 1 ∧ m.line.off = r.off + r.len + 1) ∧
    m.acct.off = m.line.off + m.line.len + 1 ∧ m.mdata.off = m.acct.off + m.acct.len + 1 ∧
    ∃ c, (m.ext = none → c = m.mdata.off + m.mdata.len + 1) ∧
      (∀ e, m.ext = some e → e.off = m.mdata.off + m.mdata.len + 1 + 1 ∧ c = e.off + e.len + 1) ∧
      (m.ts = none → m.stop = c) ∧
      (∀ t, m.ts = some t → t.off = c + 1 ∧ t.off + t.len = p.length ∧ m.stop = p.length)

/-- 42_parser.md R84, R85, R87: wherever the payload has the grammar's required part, the matcher matches there and finds
exactly these fields. An extension group that follows is reported, and then a timestamp group, which runs to the end of
the payload; where the bytes that follow are no such group it is absent, and the bytes after the match are ignored. -/
def Obligations.MatcherComplete : Prop :=
  ∀ (pre id seq line acct mdata rest : List Byte) (rcv ext ts : Option (List Byte)),
    InClass isNotQuote 1 id.length id → InClass isDigit 4 4 seq →
    (∀ r, rcv = some r → InClass isHex 1 6 r) → InClass isHex 1 6 line →
    InClass isWordChar 1 acct.length acct → InClass isNotRBracket 1 mdata.length mdata →
    (∀ e, ext = some e → InClass isNotRBracket 1 e.length e) →
    (ext = none → ∀ e r, InClass isNotRBracket 1 e.length e → tsPart ts ++ rest ≠ [0x5B#8] ++ e ++ [0x5D#8] ++ r) →
    (∀ t, ts = some t → t ≠ [] ∧ rest = []) →
    (ts = none → ∀ t, t ≠ [] → rest ≠ [0x5F#8] ++ t) →
    ∀ p, p = pre ++ [0x22#8] ++ id ++ [0x22#8] ++ seq ++ rcvPart rcv
        ++ [0x4C#8] ++ line ++ [0x23#8] ++ acct ++ [0x5B#8] ++ mdata ++ [0x5D#8]
        ++ extPart ext ++ tsPart ts ++ rest →
      ∃ m, tryMatch p pre.length = some m ∧ m.id.bytes p = id ∧ m.seq.bytes p = seq ∧
        m.rcv.map (Token.bytes p) = rcv ∧ m.line.bytes p = line ∧ m.acct.bytes p = acct ∧
        m.mdata.bytes p = mdata ∧ m.ext.map (Token.bytes p) = ext ∧ m.ts.map (Token.bytes p) = ts ∧
        m.stop + rest.length = p.length

/-- 42_parser.md R88: a raw timestamp decodes exactly where it has the form `HH:MM:SS,MM-DD-YYYY`, to the decimal values
of its digits, with no range check. -/
def Obligations.TimestampForm : Prop :=
  ∀ (raw : List Byte) (f : TsFields), tsDecode raw = some f ↔
    ∃ h1 h0 m1 m0 s1 s0 o1 o0 d1 d0 y3 y2 y1 y0 : Byte,
      raw = [h1, h0, 0x3A#8, m1, m0, 0x3A#8, s1, s0, 0x2C#8, o1, o0, 0x2D#8, d1, d0, 0x2D#8, y3, y2, y1, y0] ∧
      (∀ b ∈ [h1, h0, m1, m0, s1, s0, o1, o0, d1, d0, y3, y2, y1, y0], isDigit b = true) ∧
      f.hour = 10 * digitVal h1 + digitVal h0 ∧ f.minute = 10 * digitVal m1 + digitVal m0 ∧
      f.second = 10 * digitVal s1 + digitVal s0 ∧ f.month = 10 * digitVal o1 + digitVal o0 ∧
      f.day = 10 * digitVal d1 + digitVal d0 ∧
      f.year = 1000 * digitVal y3 + 100 * digitVal y2 + 10 * digitVal y1 + digitVal y0

/-- 42_parser.md R83, 41_frame_codec.md R80: a payload that does not match is still acknowledged: PARSE and then
BUILD_ACK give the 15-byte frame of the payload `"ACK"L#[]`. -/
def Obligations.MismatchIsAcknowledged : Prop :=
  ∀ (s : State) (p : List Byte), 15 ≤ s.params.txCap.toNat → s.dec.frameOk = true →
    s.rxs 7 s.dec.comp.len.toNat = .ok p → grammarMatch p = none →
    ∃ t u, exec .parse s = .next t ∧ t.result = .grammarMismatch ∧ exec .buildAck t = .next u ∧
      u.result = .ok ∧ u.txLen = 15#16 ∧
      u.txs 0 15 = .ok [0x0A#8, 0xB6#8, 0xDD#8, 0x00#8, 0x09#8, 0x22#8, 0x41#8, 0x43#8, 0x4B#8, 0x22#8,
        0x4C#8, 0x23#8, 0x5B#8, 0x5D#8, 0x0D#8]

/-! ### The normaliser -/

/-- 42_parser.md R91: NORMALIZE ends in RX_OVERFLOW, then in SPAN_RANGE, with no other effect; else it faults on the first
unwritten byte of the span, or writes the normalised bytes to `NB[0..)` and their number to NORM_LEN, and completes with
OK. -/
def Obligations.NormalizeResult : Prop :=
  IssuedBy 0x21#8 .normalize ∧
  ∀ s : State,
    (s.params.rxCap.toNat < s.rxLen.toNat →
      exec .normalize s = .next { s with result := .rxOverflow, done := true, eng := .idle }) ∧
    (s.rxLen.toNat ≤ s.params.rxCap.toNat → s.rxLen.toNat < s.span.off.toNat + s.span.len.toNat →
      exec .normalize s = .next { s with result := .spanRange, done := true, eng := .idle }) ∧
    (s.rxLen.toNat ≤ s.params.rxCap.toNat → s.span.off.toNat + s.span.len.toNat ≤ s.rxLen.toNat →
      (∀ bs, s.rxs s.span.off.toNat s.span.len.toNat = .ok bs →
        ∃ t, exec .normalize s = .next t ∧
          t = { s with
            normbuf := t.normbuf, normLen := t.normLen, result := .ok, done := true, eng := .idle } ∧
          t.normLen.toNat = (normBytes bs).length ∧
          Memory.readBytes .nb t.normbuf 0 (normBytes bs).length = .ok (normBytes bs) ∧
          (∀ j, (normBytes bs).length ≤ j → t.normbuf.read j = s.normbuf.read j)) ∧
      (∀ f, s.rxs s.span.off.toNat s.span.len.toNat = .error f → exec .normalize s = .fault f))

/-- 42_parser.md R90: every maximal run of separators is replaced by a single underscore, wherever it stands; a string
without separators is copied unchanged; the normalised form is no longer than its source, holds no separator, and
normalises to itself. -/
def Obligations.NormForm : Prop :=
  (∀ u r v : List Byte, r ≠ [] → (∀ b ∈ r, isSep b = true) →
    (∀ b, u.getLast? = some b → isSep b = false) → (∀ b, v.head? = some b → isSep b = false) →
    normBytes (u ++ r ++ v) = normBytes u ++ [0x5F#8] ++ normBytes v) ∧
  (∀ s : List Byte, (∀ b ∈ s, isSep b = false) → normBytes s = s) ∧
  (∀ s : List Byte, (normBytes s).length ≤ s.length ∧ (∀ b ∈ normBytes s, isSep b = false) ∧
    normBytes (normBytes s) = normBytes s)

/-- 42_parser.md R92: an account the grammar matched is its own normalised form. -/
def Obligations.ParsedAccountIsNormal : Prop :=
  ∀ (p : List Byte) (m : Match), grammarMatch p = some m → normBytes (m.acct.bytes p) = m.acct.bytes p

/-! ### The bus -/

/-- 10_state.md R17: every field of STATUS stands at its bits, and the reserved bits read 0. -/
def Obligations.StatusFields : Prop :=
  ∀ s : State,
    s.statusWord.getLsbD 0 = s.busy ∧ s.statusWord.getLsbD 1 = s.done ∧
    s.statusWord.extractLsb' 2 6 = 0#6 ∧ s.statusWord.extractLsb' 8 8 = s.result.code ∧
    s.statusWord.getLsbD 16 = s.dec.frameOk ∧ s.statusWord.getLsbD 17 = s.prs.parsed ∧
    s.statusWord.getLsbD 18 = s.prs.matched ∧ s.statusWord.getLsbD 19 = s.prs.tsOk ∧
    s.statusWord.getLsbD 20 = s.dec.crcMatch ∧ s.statusWord.getLsbD 21 = s.dec.lenMatch ∧
    s.statusWord.extractLsb' 22 10 = 0#10

/-- 10_state.md R15 to R32, 20_memory.md R44: what a 32-bit read of each register returns while no command is pending, at
each of the 24 offsets; the block does not change. What a read returned stands in `lastRead` (assumption 6). -/
def Obligations.RegisterReads : Prop :=
  ∀ (s : State) (a : Nat) (v : Word) (rest : List Input), s.eng = .idle →
    s.inputs = .read (s.params.base + a) 4 :: rest →
    (a, v) ∈
      [(0x000, s.lastOp.setWidth 32), (0x004, s.statusWord), (0x008, s.acc.setWidth 32), (0x00C, 0#32),
       (0x010, s.rxLen.setWidth 32), (0x014, s.txPlen.setWidth 32), (0x018, s.txLen.setWidth 32),
       (0x01C, s.span.len ++ s.span.off), (0x020, s.dec.decl.len ++ s.dec.decl.crc),
       (0x024, s.dec.comp.len ++ s.dec.comp.crc), (0x028, s.prs.present.setWidth 32),
       (0x02C, s.prs.matchSpan.len ++ s.prs.matchSpan.off), (0x030, s.prs.fId.len ++ s.prs.fId.off),
       (0x034, s.prs.fSeq.len ++ s.prs.fSeq.off), (0x038, s.prs.fRcv.len ++ s.prs.fRcv.off),
       (0x03C, s.prs.fLine.len ++ s.prs.fLine.off), (0x040, s.prs.fAcct.len ++ s.prs.fAcct.off),
       (0x044, s.prs.fMdata.len ++ s.prs.fMdata.off), (0x048, s.prs.fExt.len ++ s.prs.fExt.off),
       (0x04C, s.prs.fTs.len ++ s.prs.fTs.off),
       (0x050, s.prs.tsDate.day ++ s.prs.tsDate.month ++ s.prs.tsDate.year),
       (0x054, 0#8 ++ s.prs.tsTime.second ++ s.prs.tsTime.minute ++ s.prs.tsTime.hour),
       (0x058, s.normLen.setWidth 32), (0x05C, s.params.txCap ++ s.params.rxCap)] →
    step s = .next { s with inputs := rest, lastRead := some (.word v) }

/-- 10_state.md R18, R20, R21, R23: what a write to each RW register does while no command is pending; bits [31:16] of a
16-bit register are ignored. -/
def Obligations.RegisterWrites : Prop :=
  ∀ (s : State) (d : Word) (rest : List Input), s.eng = .idle →
    (s.inputs = .write (s.params.base + 0x008) 4 d :: rest →
      step s = .next { s with inputs := rest, acc := d.extractLsb' 0 16 }) ∧
    (s.inputs = .write (s.params.base + 0x010) 4 d :: rest →
      step s = .next { s with
        inputs := rest, rxLen := d.extractLsb' 0 16, dec := DecodeRegs.cleared, prs := ParseRegs.cleared }) ∧
    (s.inputs = .write (s.params.base + 0x014) 4 d :: rest →
      step s = .next { s with inputs := rest, txPlen := d.extractLsb' 0 16, txLen := 0#16 }) ∧
    (s.inputs = .write (s.params.base + 0x01C) 4 d :: rest →
      step s = .next { s with
        inputs := rest, span := { off := d.extractLsb' 0 16, len := d.extractLsb' 16 16 } })

/-- 20_memory.md R42, 10_state.md R35: what a host write of a byte inside RXBUF and TXBUF does while no command is
pending: the byte reads back, every other byte keeps its value, RXBUF performs `clear_decode` and TXBUF clears TX_LEN. That the byte is the low 8 bits
of the data is the model's reading (assumption 8). -/
def Obligations.BufferWrites : Prop :=
  ∀ (s : State) (i : Nat) (d : Word) (rest : List Input), s.eng = .idle →
    (i < s.params.rxCap.toNat → s.inputs = .write (s.params.base + (0x10000 + i)) 1 d :: rest →
      ∃ t, step s = .next t ∧
        t = { s with
          inputs := rest, rxbuf := t.rxbuf, dec := DecodeRegs.cleared, prs := ParseRegs.cleared } ∧
        t.byteAtOffset (0x10000 + i) = some (d.extractLsb' 0 8) ∧
        ∀ a, a ≠ 0x10000 + i → t.byteAtOffset a = s.byteAtOffset a) ∧
    (i < s.params.txCap.toNat → s.inputs = .write (s.params.base + (0x20000 + i)) 1 d :: rest →
      ∃ t, step s = .next t ∧
        t = { s with inputs := rest, txbuf := t.txbuf, txLen := 0#16 } ∧
        t.byteAtOffset (0x20000 + i) = some (d.extractLsb' 0 8) ∧
        ∀ a, a ≠ 0x20000 + i → t.byteAtOffset a = s.byteAtOffset a)

/-- 20_memory.md R42, 10_state.md R34: a host read of a byte inside a buffer returns it, and faults where the byte is
unwritten; the block does not change. What a read returned stands in `lastRead` (assumption 6). -/
def Obligations.BufferReads : Prop :=
  ∀ (s : State) (a i : Nat) (buf : Buffer) (rest : List Input), s.eng = .idle →
    s.inputs = .read (s.params.base + a) 1 :: rest → regionOf s.params a = .window buf i →
    (∀ b, s.byteAtOffset a = some b →
      step s = .next { s with inputs := rest, lastRead := some (.byte b) }) ∧
    (s.byteAtOffset a = none → step s = .fault (.uninitRead buf i))

/-- 20_memory.md R41, R45, 60_exceptions.md R101: the bus errors of a host access at offset `a`, in their order, whether
a command is pending or not: UNMAPPED outside the registers and the three windows, then WIDTH, then ALIGN, then
READ_ONLY. -/
def Obligations.BusErrors : Prop :=
  ∀ (s : State) (a w : Nat) (d : Word) (rest : List Input),
    (¬ (a < 0x60 ∨ (0x10000 ≤ a ∧ a < 0x10000 + s.params.rxCap.toNat) ∨
        (0x20000 ≤ a ∧ a < 0x20000 + s.params.txCap.toNat) ∨
        (0x30000 ≤ a ∧ a < 0x30000 + s.params.rxCap.toNat)) →
      (s.inputs = .read (s.params.base + a) w :: rest ∨ s.inputs = .write (s.params.base + a) w d :: rest) →
      step s = .fault (.busError a w .unmapped)) ∧
    ((a < 0x60 ∧ w ≠ 4) ∨
      (((0x10000 ≤ a ∧ a < 0x10000 + s.params.rxCap.toNat) ∨
        (0x20000 ≤ a ∧ a < 0x20000 + s.params.txCap.toNat) ∨
        (0x30000 ≤ a ∧ a < 0x30000 + s.params.rxCap.toNat)) ∧ w ≠ 1) →
      (s.inputs = .read (s.params.base + a) w :: rest ∨ s.inputs = .write (s.params.base + a) w d :: rest) →
      step s = .fault (.busError a w .width)) ∧
    (a < 0x60 → w = 4 → a % 4 ≠ 0 →
      (s.inputs = .read (s.params.base + a) w :: rest ∨ s.inputs = .write (s.params.base + a) w d :: rest) →
      step s = .fault (.busError a w .align)) ∧
    ((a < 0x60 ∧ w = 4 ∧ a % 4 = 0 ∧ a ∉ [0x000, 0x008, 0x00C, 0x010, 0x014, 0x01C]) ∨
      (0x30000 ≤ a ∧ a < 0x30000 + s.params.rxCap.toNat ∧ w = 1) →
      s.inputs = .write (s.params.base + a) w d :: rest →
      step s = .fault (.busError a w .readOnly))

/-- 70_reset_and_hazards.md R114: while a command is pending, a read of STATUS returns it and changes nothing of the
block, and every other access that is no bus error faults HAZARD_BUSY. -/
def Obligations.BusyHazard : Prop :=
  ∀ (s : State) (op : Byte) (a w : Nat) (d : Word) (rest : List Input), s.eng = .busy op →
    (s.inputs = .read (s.params.base + 0x004) 4 :: rest →
      step s = .next { s with inputs := rest, lastRead := some (.word s.statusWord) }) ∧
    (∀ t, busTarget s.params a w .read = .ok t → a ≠ 0x004 →
      s.inputs = .read (s.params.base + a) w :: rest → step s = .fault (.hazardBusy a .read)) ∧
    (∀ t, busTarget s.params a w .write = .ok t →
      s.inputs = .write (s.params.base + a) w d :: rest → step s = .fault (.hazardBusy a .write)) ∧
    (∀ f, busTarget s.params a w .read = .error f →
      s.inputs = .read (s.params.base + a) w :: rest → step s = .fault f) ∧
    (∀ f, busTarget s.params a w .write = .error f →
      s.inputs = .write (s.params.base + a) w d :: rest → step s = .fault f)

/-- 20_memory.md R46: a read has no side effect: nothing of the block changes. What a read returned stands in
`lastRead` (assumption 6). -/
def Obligations.ReadsHaveNoSideEffect : Prop :=
  ∀ (s t : State) (addr w : Nat) (rest : List Input), s.inputs = .read addr w :: rest →
    step s = .next t → t = { s with inputs := rest, lastRead := t.lastRead }

/-! ### Frames -/

/-- What the commands that store no byte leave unchanged (43_control.md R96, R98, 40_crc.md R71 to R73,
41_frame_codec.md R74, 42_parser.md R83): every register but those named, and every byte of memory. -/
def Obligations.FrameNonStoring : Prop :=
  ∀ s t : State,
    (∀ i, (i = .nop ∨ ∃ op, i = .illegal op) → exec i s = .next t →
      t = { s with result := t.result, done := t.done, eng := t.eng } ∧
      ∀ a, t.byteAtOffset a = s.byteAtOffset a) ∧
    (∀ i, (i = .crcInit ∨ i = .crcRx) → exec i s = .next t →
      t = { s with acc := t.acc, result := t.result, done := t.done, eng := t.eng } ∧
      ∀ a, t.byteAtOffset a = s.byteAtOffset a) ∧
    (∀ b, exec (.crcByte b) s = .next t →
      t = { s with acc := t.acc } ∧ ∀ a, t.byteAtOffset a = s.byteAtOffset a) ∧
    (exec .decode s = .next t →
      t = { s with dec := t.dec, prs := t.prs, result := t.result, done := t.done, eng := t.eng } ∧
      ∀ a, t.byteAtOffset a = s.byteAtOffset a) ∧
    (exec .parse s = .next t →
      t = { s with prs := t.prs, result := t.result, done := t.done, eng := t.eng } ∧
      ∀ a, t.byteAtOffset a = s.byteAtOffset a)

/-- What ENCODE leaves unchanged (41_frame_codec.md R78): every register but those named, and every byte of memory but
`TX[0..5)` and `TX[5+L]`; where it does not complete with OK, every byte. -/
def Obligations.FrameEncode : Prop :=
  ∀ s t : State, exec .encode s = .next t →
    t = { s with txbuf := t.txbuf, txLen := t.txLen, result := t.result, done := t.done, eng := t.eng } ∧
    (∀ a, ¬ (0x20000 ≤ a ∧ a < 0x20000 + 5) → a ≠ 0x20000 + (5 + s.txPlen.toNat) →
      t.byteAtOffset a = s.byteAtOffset a) ∧
    (t.result ≠ .ok → ∀ a, t.byteAtOffset a = s.byteAtOffset a)

/-- What BUILD_ACK leaves unchanged (41_frame_codec.md R80): every register but those named, and every byte of memory but
`TX[0..|a|+6)`, a being the payload it composes; where it does not complete with OK, TX_PLEN and every byte. -/
def Obligations.FrameBuildAck : Prop :=
  ∀ s t : State, exec .buildAck s = .next t →
    t = { s with
      txbuf := t.txbuf, txPlen := t.txPlen, txLen := t.txLen, result := t.result, done := t.done
      eng := t.eng } ∧
    (t.result = .ok → ∃ seq rcv line acct, s.rxSpan s.prs.fSeq = .ok seq ∧ s.rxSpan s.prs.fRcv = .ok rcv ∧
      s.rxSpan s.prs.fLine = .ok line ∧ s.rxSpan s.prs.fAcct = .ok acct ∧
      ∀ a, ¬ (0x20000 ≤ a ∧ a < 0x20000 + ((ackPayload seq rcv line acct).length + 6)) →
        t.byteAtOffset a = s.byteAtOffset a) ∧
    (t.result ≠ .ok → t.txPlen = s.txPlen ∧ ∀ a, t.byteAtOffset a = s.byteAtOffset a)

/-- What NORMALIZE leaves unchanged (42_parser.md R91): every register but those named, and every byte of memory but
`NB[0..n)`, n being the length of the normalised span; where it does not complete with OK, NORM_LEN and every byte. -/
def Obligations.FrameNormalize : Prop :=
  ∀ s t : State, exec .normalize s = .next t →
    t = { s with normbuf := t.normbuf, normLen := t.normLen, result := t.result, done := t.done, eng := t.eng } ∧
    (t.result = .ok → ∃ bs, s.rxSpan s.span = .ok bs ∧
      ∀ a, ¬ (0x30000 ≤ a ∧ a < 0x30000 + (normBytes bs).length) → t.byteAtOffset a = s.byteAtOffset a) ∧
    (t.result ≠ .ok → t.normLen = s.normLen ∧ ∀ a, t.byteAtOffset a = s.byteAtOffset a)

/-! ### Invariants -/

/-- 10_state.md R34, R38: every step keeps the buffers in canonical form (the model's form of the written bits,
assumption 11) and their bytes inside their capacities. -/
def Obligations.StepKeepsBuffersWf : Prop :=
  ∀ s t : State, s.BuffersWf → step s = .next t → t.BuffersWf

/-- 10_state.md R33: every step keeps a pending command the last one written to CMD, and not done. -/
def Obligations.StepKeepsPendingOk : Prop :=
  ∀ s t : State, s.PendingOk → step s = .next t → t.PendingOk

/-- 10_state.md R35, 70_reset_and_hazards.md R117: every step keeps the decode and parse results those of what RXBUF holds,
or zero: they never describe a chunk the host has changed since. -/
def Obligations.StepKeepsFresh : Prop :=
  ∀ s t : State, s.Fresh → step s = .next t → t.Fresh

/-- 10_state.md R22: every step keeps TX_LEN zero, or `TX[0..TX_LEN)` a finished outbound frame. -/
def Obligations.StepKeepsTxFresh : Prop :=
  ∀ s t : State, s.TxFresh → step s = .next t → t.TxFresh

/-- 10_state.md R31, 42_parser.md R90: every step keeps `NB[0..NORM_LEN)` a normalised identifier inside NORMBUF. -/
def Obligations.StepKeepsNormFresh : Prop :=
  ∀ s t : State, s.NormFresh → step s = .next t → t.NormFresh

/-- 10_state.md R32: CAPS reads the capacities, RX_CAP in bits [15:0] and TX_CAP in bits [31:16], and no step changes the
parameters, so CAPS never changes. -/
def Obligations.StepKeepsParams : Prop :=
  ∀ s : State, s.readReg .caps = s.params.txCap ++ s.params.rxCap ∧
    ∀ t, step s = .next t → t.params = s.params ∧ t.readReg .caps = s.readReg .caps

/-- 70_reset_and_hazards.md R111: the reset state meets every invariant, whatever the parameters. -/
def Obligations.ResetMeetsInvariants : Prop :=
  ∀ p : Params, (State.resetWith p).BuffersWf ∧ (State.resetWith p).PendingOk ∧ (State.resetWith p).Fresh ∧
    (State.resetWith p).TxFresh ∧ (State.resetWith p).NormFresh

/-- 10_state.md R26, R28: where the decode and parse results are fresh, PRESENT has the bits of the required groups
exactly where MATCH is 1, and the bit of an optional group exactly where its field has bytes. -/
def Obligations.PresentFollowsFields : Prop :=
  ∀ s : State, s.Fresh →
    (s.prs.matched = false → s.prs.present = 0#8) ∧
    (s.prs.matched = true →
      s.prs.present.getLsbD 0 = true ∧ s.prs.present.getLsbD 1 = true ∧ s.prs.present.getLsbD 3 = true ∧
      s.prs.present.getLsbD 4 = true ∧ s.prs.present.getLsbD 5 = true ∧
      s.prs.present.getLsbD 2 = decide (s.prs.fRcv.len ≠ 0#16) ∧
      s.prs.present.getLsbD 6 = decide (s.prs.fExt.len ≠ 0#16) ∧
      s.prs.present.getLsbD 7 = decide (s.prs.fTs.len ≠ 0#16))

/-- 42_parser.md R83, 41_frame_codec.md R80: where the decode and parse results are fresh, PARSE and BUILD_ACK read
written bytes only: neither faults. -/
def Obligations.ParseAndAckNeverFault : Prop :=
  ∀ s : State, s.Fresh → (∃ t, exec .parse s = .next t) ∧ ∃ t, exec .buildAck s = .next t

/-- 41_frame_codec.md R82, 00_scope.md R5: where the decode and parse results are fresh, the acknowledgment BUILD_ACK
builds has at most `COMP_LEN + 1` payload bytes and its frame at most `RX_LEN - 1` bytes when the grammar matched, and
the frame has 15 bytes when it did not; so with TX_CAP at least RX_CAP it never returns TX_OVERFLOW. -/
def Obligations.AckNeverOverflows : Prop :=
  ∀ s : State, s.params.Legal → s.Fresh → s.dec.frameOk = true → s.prs.parsed = true →
    ∃ t, exec .buildAck s = .next t ∧
      (s.params.rxCap.toNat ≤ s.params.txCap.toNat → t.result = .ok) ∧
      (t.result = .ok → s.prs.matched = true →
        t.txPlen.toNat ≤ s.dec.comp.len.toNat + 1 ∧ t.txLen.toNat ≤ s.rxLen.toNat - 1) ∧
      (t.result = .ok → s.prs.matched = false → t.txLen.toNat = 15)

/-! ### Character classes -/

/-- 30_encoding.md R59, R61, 42_parser.md R88, R90: which byte values each character class holds, and what a hexadecimal
and a decimal digit is worth. -/
def Obligations.CharacterClasses : Prop :=
  ∀ b : Byte,
    (isDigit b = true ↔ 0x30 ≤ b.toNat ∧ b.toNat ≤ 0x39) ∧
    (isHex b = true ↔ (0x30 ≤ b.toNat ∧ b.toNat ≤ 0x39) ∨ (0x41 ≤ b.toNat ∧ b.toNat ≤ 0x46) ∨
      (0x61 ≤ b.toNat ∧ b.toNat ≤ 0x66)) ∧
    (isWordChar b = true ↔ (0x30 ≤ b.toNat ∧ b.toNat ≤ 0x39) ∨ (0x41 ≤ b.toNat ∧ b.toNat ≤ 0x5A) ∨
      b.toNat = 0x5F ∨ (0x61 ≤ b.toNat ∧ b.toNat ≤ 0x7A)) ∧
    (isNotQuote b = true ↔ b.toNat ≠ 0x22) ∧ (isNotRBracket b = true ↔ b.toNat ≠ 0x5D) ∧
    (isSep b = true ↔ b.toNat ∈ [0x2E, 0x09, 0x0A, 0x0B, 0x0C, 0x0D, 0x20]) ∧
    (0x30 ≤ b.toNat → b.toNat ≤ 0x39 → hexval b = b.toNat - 0x30 ∧ digitVal b = b.toNat - 0x30) ∧
    (0x41 ≤ b.toNat → b.toNat ≤ 0x46 → hexval b = b.toNat - 0x41 + 10) ∧
    (0x61 ≤ b.toNat → b.toNat ≤ 0x66 → hexval b = b.toNat - 0x61 + 10)
end

