-- ==== Sys2Proof/Laws/State.lean ====
section
/-! SUPPORT. What each named update does to each field of State, one lemma per field per update, so that no later proof
unfolds a record update. -/

namespace Sys2Proof.Machine

variable (s : State)

/-! ### `issue` (43_control.md R93) -/

@[simp] theorem State.issue_params (op : Byte) : (s.issue op).params = s.params := rfl
@[simp] theorem State.issue_eng (op : Byte) : (s.issue op).eng = .busy op := rfl
@[simp] theorem State.issue_lastOp (op : Byte) : (s.issue op).lastOp = op := rfl
@[simp] theorem State.issue_done (op : Byte) : (s.issue op).done = false := rfl
@[simp] theorem State.issue_result (op : Byte) : (s.issue op).result = s.result := rfl
@[simp] theorem State.issue_acc (op : Byte) : (s.issue op).acc = s.acc := rfl
@[simp] theorem State.issue_rxLen (op : Byte) : (s.issue op).rxLen = s.rxLen := rfl
@[simp] theorem State.issue_txPlen (op : Byte) : (s.issue op).txPlen = s.txPlen := rfl
@[simp] theorem State.issue_txLen (op : Byte) : (s.issue op).txLen = s.txLen := rfl
@[simp] theorem State.issue_span (op : Byte) : (s.issue op).span = s.span := rfl
@[simp] theorem State.issue_dec (op : Byte) : (s.issue op).dec = s.dec := rfl
@[simp] theorem State.issue_prs (op : Byte) : (s.issue op).prs = s.prs := rfl
@[simp] theorem State.issue_normLen (op : Byte) : (s.issue op).normLen = s.normLen := rfl
@[simp] theorem State.issue_rxbuf (op : Byte) : (s.issue op).rxbuf = s.rxbuf := rfl
@[simp] theorem State.issue_txbuf (op : Byte) : (s.issue op).txbuf = s.txbuf := rfl
@[simp] theorem State.issue_normbuf (op : Byte) : (s.issue op).normbuf = s.normbuf := rfl
@[simp] theorem State.issue_inputs (op : Byte) : (s.issue op).inputs = s.inputs := rfl
@[simp] theorem State.issue_lastRead (op : Byte) : (s.issue op).lastRead = s.lastRead := rfl

/-! ### `finish` (43_control.md R94) -/

@[simp] theorem State.finish_params (c : ResultCode) : (s.finish c).params = s.params := rfl
@[simp] theorem State.finish_eng (c : ResultCode) : (s.finish c).eng = .idle := rfl
@[simp] theorem State.finish_lastOp (c : ResultCode) : (s.finish c).lastOp = s.lastOp := rfl
@[simp] theorem State.finish_done (c : ResultCode) : (s.finish c).done = true := rfl
@[simp] theorem State.finish_result (c : ResultCode) : (s.finish c).result = c := rfl
@[simp] theorem State.finish_acc (c : ResultCode) : (s.finish c).acc = s.acc := rfl
@[simp] theorem State.finish_rxLen (c : ResultCode) : (s.finish c).rxLen = s.rxLen := rfl
@[simp] theorem State.finish_txPlen (c : ResultCode) : (s.finish c).txPlen = s.txPlen := rfl
@[simp] theorem State.finish_txLen (c : ResultCode) : (s.finish c).txLen = s.txLen := rfl
@[simp] theorem State.finish_span (c : ResultCode) : (s.finish c).span = s.span := rfl
@[simp] theorem State.finish_dec (c : ResultCode) : (s.finish c).dec = s.dec := rfl
@[simp] theorem State.finish_prs (c : ResultCode) : (s.finish c).prs = s.prs := rfl
@[simp] theorem State.finish_normLen (c : ResultCode) : (s.finish c).normLen = s.normLen := rfl
@[simp] theorem State.finish_rxbuf (c : ResultCode) : (s.finish c).rxbuf = s.rxbuf := rfl
@[simp] theorem State.finish_txbuf (c : ResultCode) : (s.finish c).txbuf = s.txbuf := rfl
@[simp] theorem State.finish_normbuf (c : ResultCode) : (s.finish c).normbuf = s.normbuf := rfl
@[simp] theorem State.finish_inputs (c : ResultCode) : (s.finish c).inputs = s.inputs := rfl
@[simp] theorem State.finish_lastRead (c : ResultCode) : (s.finish c).lastRead = s.lastRead := rfl

/-! ### `clearParse` (10_state.md R35) -/

@[simp] theorem State.clearParse_params : s.clearParse.params = s.params := rfl
@[simp] theorem State.clearParse_eng : s.clearParse.eng = s.eng := rfl
@[simp] theorem State.clearParse_lastOp : s.clearParse.lastOp = s.lastOp := rfl
@[simp] theorem State.clearParse_done : s.clearParse.done = s.done := rfl
@[simp] theorem State.clearParse_result : s.clearParse.result = s.result := rfl
@[simp] theorem State.clearParse_acc : s.clearParse.acc = s.acc := rfl
@[simp] theorem State.clearParse_rxLen : s.clearParse.rxLen = s.rxLen := rfl
@[simp] theorem State.clearParse_txPlen : s.clearParse.txPlen = s.txPlen := rfl
@[simp] theorem State.clearParse_txLen : s.clearParse.txLen = s.txLen := rfl
@[simp] theorem State.clearParse_span : s.clearParse.span = s.span := rfl
@[simp] theorem State.clearParse_dec : s.clearParse.dec = s.dec := rfl
@[simp] theorem State.clearParse_prs : s.clearParse.prs = ParseRegs.cleared := rfl
@[simp] theorem State.clearParse_normLen : s.clearParse.normLen = s.normLen := rfl
@[simp] theorem State.clearParse_rxbuf : s.clearParse.rxbuf = s.rxbuf := rfl
@[simp] theorem State.clearParse_txbuf : s.clearParse.txbuf = s.txbuf := rfl
@[simp] theorem State.clearParse_normbuf : s.clearParse.normbuf = s.normbuf := rfl
@[simp] theorem State.clearParse_inputs : s.clearParse.inputs = s.inputs := rfl
@[simp] theorem State.clearParse_lastRead : s.clearParse.lastRead = s.lastRead := rfl

/-! ### `clearDecode` (10_state.md R35) -/

@[simp] theorem State.clearDecode_params : s.clearDecode.params = s.params := rfl
@[simp] theorem State.clearDecode_eng : s.clearDecode.eng = s.eng := rfl
@[simp] theorem State.clearDecode_lastOp : s.clearDecode.lastOp = s.lastOp := rfl
@[simp] theorem State.clearDecode_done : s.clearDecode.done = s.done := rfl
@[simp] theorem State.clearDecode_result : s.clearDecode.result = s.result := rfl
@[simp] theorem State.clearDecode_acc : s.clearDecode.acc = s.acc := rfl
@[simp] theorem State.clearDecode_rxLen : s.clearDecode.rxLen = s.rxLen := rfl
@[simp] theorem State.clearDecode_txPlen : s.clearDecode.txPlen = s.txPlen := rfl
@[simp] theorem State.clearDecode_txLen : s.clearDecode.txLen = s.txLen := rfl
@[simp] theorem State.clearDecode_span : s.clearDecode.span = s.span := rfl
@[simp] theorem State.clearDecode_dec : s.clearDecode.dec = DecodeRegs.cleared := rfl
@[simp] theorem State.clearDecode_prs : s.clearDecode.prs = ParseRegs.cleared := rfl
@[simp] theorem State.clearDecode_normLen : s.clearDecode.normLen = s.normLen := rfl
@[simp] theorem State.clearDecode_rxbuf : s.clearDecode.rxbuf = s.rxbuf := rfl
@[simp] theorem State.clearDecode_txbuf : s.clearDecode.txbuf = s.txbuf := rfl
@[simp] theorem State.clearDecode_normbuf : s.clearDecode.normbuf = s.normbuf := rfl
@[simp] theorem State.clearDecode_inputs : s.clearDecode.inputs = s.inputs := rfl
@[simp] theorem State.clearDecode_lastRead : s.clearDecode.lastRead = s.lastRead := rfl

/-! ### `clearTxLen` (10_state.md R22) -/

@[simp] theorem State.clearTxLen_params : s.clearTxLen.params = s.params := rfl
@[simp] theorem State.clearTxLen_eng : s.clearTxLen.eng = s.eng := rfl
@[simp] theorem State.clearTxLen_lastOp : s.clearTxLen.lastOp = s.lastOp := rfl
@[simp] theorem State.clearTxLen_done : s.clearTxLen.done = s.done := rfl
@[simp] theorem State.clearTxLen_result : s.clearTxLen.result = s.result := rfl
@[simp] theorem State.clearTxLen_acc : s.clearTxLen.acc = s.acc := rfl
@[simp] theorem State.clearTxLen_rxLen : s.clearTxLen.rxLen = s.rxLen := rfl
@[simp] theorem State.clearTxLen_txPlen : s.clearTxLen.txPlen = s.txPlen := rfl
@[simp] theorem State.clearTxLen_txLen : s.clearTxLen.txLen = 0#16 := rfl
@[simp] theorem State.clearTxLen_span : s.clearTxLen.span = s.span := rfl
@[simp] theorem State.clearTxLen_dec : s.clearTxLen.dec = s.dec := rfl
@[simp] theorem State.clearTxLen_prs : s.clearTxLen.prs = s.prs := rfl
@[simp] theorem State.clearTxLen_normLen : s.clearTxLen.normLen = s.normLen := rfl
@[simp] theorem State.clearTxLen_rxbuf : s.clearTxLen.rxbuf = s.rxbuf := rfl
@[simp] theorem State.clearTxLen_txbuf : s.clearTxLen.txbuf = s.txbuf := rfl
@[simp] theorem State.clearTxLen_normbuf : s.clearTxLen.normbuf = s.normbuf := rfl
@[simp] theorem State.clearTxLen_inputs : s.clearTxLen.inputs = s.inputs := rfl
@[simp] theorem State.clearTxLen_lastRead : s.clearTxLen.lastRead = s.lastRead := rfl

/-! ### `resetState` (70_reset_and_hazards.md R111) -/

@[simp] theorem State.resetState_params : s.resetState.params = s.params := rfl
@[simp] theorem State.resetState_eng : s.resetState.eng = .idle := rfl
@[simp] theorem State.resetState_lastOp : s.resetState.lastOp = 0x00#8 := rfl
@[simp] theorem State.resetState_done : s.resetState.done = false := rfl
@[simp] theorem State.resetState_result : s.resetState.result = .ok := rfl
@[simp] theorem State.resetState_acc : s.resetState.acc = 0x0000#16 := rfl
@[simp] theorem State.resetState_rxLen : s.resetState.rxLen = 0#16 := rfl
@[simp] theorem State.resetState_txPlen : s.resetState.txPlen = 0#16 := rfl
@[simp] theorem State.resetState_txLen : s.resetState.txLen = 0#16 := rfl
@[simp] theorem State.resetState_span : s.resetState.span = Span.zero := rfl
@[simp] theorem State.resetState_dec : s.resetState.dec = DecodeRegs.cleared := rfl
@[simp] theorem State.resetState_prs : s.resetState.prs = ParseRegs.cleared := rfl
@[simp] theorem State.resetState_normLen : s.resetState.normLen = 0#16 := rfl
@[simp] theorem State.resetState_rxbuf : s.resetState.rxbuf = [] := rfl
@[simp] theorem State.resetState_txbuf : s.resetState.txbuf = [] := rfl
@[simp] theorem State.resetState_normbuf : s.resetState.normbuf = [] := rfl
@[simp] theorem State.resetState_inputs : s.resetState.inputs = s.inputs := rfl
@[simp] theorem State.resetState_lastRead : s.resetState.lastRead = s.lastRead := rfl

/-! ### `popInput` (20_memory.md R50) -/

@[simp] theorem State.popInput_params : s.popInput.params = s.params := rfl
@[simp] theorem State.popInput_eng : s.popInput.eng = s.eng := rfl
@[simp] theorem State.popInput_lastOp : s.popInput.lastOp = s.lastOp := rfl
@[simp] theorem State.popInput_done : s.popInput.done = s.done := rfl
@[simp] theorem State.popInput_result : s.popInput.result = s.result := rfl
@[simp] theorem State.popInput_acc : s.popInput.acc = s.acc := rfl
@[simp] theorem State.popInput_rxLen : s.popInput.rxLen = s.rxLen := rfl
@[simp] theorem State.popInput_txPlen : s.popInput.txPlen = s.txPlen := rfl
@[simp] theorem State.popInput_txLen : s.popInput.txLen = s.txLen := rfl
@[simp] theorem State.popInput_span : s.popInput.span = s.span := rfl
@[simp] theorem State.popInput_dec : s.popInput.dec = s.dec := rfl
@[simp] theorem State.popInput_prs : s.popInput.prs = s.prs := rfl
@[simp] theorem State.popInput_normLen : s.popInput.normLen = s.normLen := rfl
@[simp] theorem State.popInput_rxbuf : s.popInput.rxbuf = s.rxbuf := rfl
@[simp] theorem State.popInput_txbuf : s.popInput.txbuf = s.txbuf := rfl
@[simp] theorem State.popInput_normbuf : s.popInput.normbuf = s.normbuf := rfl
@[simp] theorem State.popInput_inputs : s.popInput.inputs = s.inputs.tail := rfl
@[simp] theorem State.popInput_lastRead : s.popInput.lastRead = s.lastRead := rfl

/-! ### `receive` (20_memory.md R42, R44) -/

@[simp] theorem State.receive_params (d : BusData) : (s.receive d).params = s.params := rfl
@[simp] theorem State.receive_eng (d : BusData) : (s.receive d).eng = s.eng := rfl
@[simp] theorem State.receive_lastOp (d : BusData) : (s.receive d).lastOp = s.lastOp := rfl
@[simp] theorem State.receive_done (d : BusData) : (s.receive d).done = s.done := rfl
@[simp] theorem State.receive_result (d : BusData) : (s.receive d).result = s.result := rfl
@[simp] theorem State.receive_acc (d : BusData) : (s.receive d).acc = s.acc := rfl
@[simp] theorem State.receive_rxLen (d : BusData) : (s.receive d).rxLen = s.rxLen := rfl
@[simp] theorem State.receive_txPlen (d : BusData) : (s.receive d).txPlen = s.txPlen := rfl
@[simp] theorem State.receive_txLen (d : BusData) : (s.receive d).txLen = s.txLen := rfl
@[simp] theorem State.receive_span (d : BusData) : (s.receive d).span = s.span := rfl
@[simp] theorem State.receive_dec (d : BusData) : (s.receive d).dec = s.dec := rfl
@[simp] theorem State.receive_prs (d : BusData) : (s.receive d).prs = s.prs := rfl
@[simp] theorem State.receive_normLen (d : BusData) : (s.receive d).normLen = s.normLen := rfl
@[simp] theorem State.receive_rxbuf (d : BusData) : (s.receive d).rxbuf = s.rxbuf := rfl
@[simp] theorem State.receive_txbuf (d : BusData) : (s.receive d).txbuf = s.txbuf := rfl
@[simp] theorem State.receive_normbuf (d : BusData) : (s.receive d).normbuf = s.normbuf := rfl
@[simp] theorem State.receive_inputs (d : BusData) : (s.receive d).inputs = s.inputs := rfl
@[simp] theorem State.receive_lastRead (d : BusData) : (s.receive d).lastRead = some d := rfl

end Sys2Proof.Machine
end

