-- ==== Sys2Proof/Laws/Ops.lean ====
section
/-! SUPPORT. What the shared operations of the commands can do: go on with the bytes read or stop in the fault of the
read, and the three ends of the span operand. -/

namespace Sys2Proof.Machine

@[simp] theorem withBytes_ok (bs : List Byte) (k : List Byte → Outcome) : withBytes (.ok bs) k = k bs := rfl

@[simp] theorem withBytes_error (f : Fault) (k : List Byte → Outcome) : withBytes (.error f) k = .fault f := rfl

/-- A command over read bytes goes on only where the read gave bytes. -/
theorem withBytes_next {r : Except Fault (List Byte)} {k : List Byte → Outcome} {t : State}
    (h : withBytes r k = .next t) : ∃ bs, r = .ok bs ∧ k bs = .next t := by
  cases r with
  | error f => cases h
  | ok bs => exact ⟨bs, rfl, h⟩

/-- A command over its span operand ends in a result code, or goes on with the bytes of the span, which lies inside the
chunk (40_crc.md R73, 42_parser.md R91). -/
theorem withSpanOperand_next {s t : State} {k : List Byte → Outcome} (h : withSpanOperand s k = .next t) :
    t = s.finish .rxOverflow ∨ t = s.finish .spanRange ∨
    (s.rxLen.toNat ≤ s.params.rxCap.toNat ∧ s.span.off.toNat + s.span.len.toNat ≤ s.rxLen.toNat ∧
      ∃ bs, s.rxSpan s.span = .ok bs ∧ k bs = .next t) := by
  unfold withSpanOperand at h
  split at h
  · cases h
    exact .inl rfl
  · split at h
    · cases h
      exact .inr (.inl rfl)
    · exact .inr (.inr ⟨by omega, by omega, withBytes_next h⟩)

/-- A command over its span operand, once the span lies inside the chunk. -/
theorem withSpanOperand_inside {s : State} (k : List Byte → Outcome)
    (h1 : s.rxLen.toNat ≤ s.params.rxCap.toNat)
    (h2 : s.span.off.toNat + s.span.len.toNat ≤ s.rxLen.toNat) :
    withSpanOperand s k = withBytes (s.rxSpan s.span) k := by
  rw [withSpanOperand, if_neg (by omega), if_neg (by omega)]

end Sys2Proof.Machine
end

