-- ==== Sys2Proof/Laws/Step.lean ====
section
/-! SUPPORT. Everything a command and a step can do, said once: the invariants of the machine are proved by cases over
these. -/

namespace Sys2Proof.Machine

/-- The next states a command can lead to (the rules are cited where each arises). -/
inductive Effect (s : State) : State → Prop where
  /-- NOP, an illegal OP, and CRC_RX or NORMALIZE with no other effect (43_control.md R96, R98). -/
  | code (c : ResultCode) : Effect s (s.finish c)
  /-- CRC_INIT and CRC_RX (40_crc.md R71, R73). -/
  | acc (a : Half) : Effect s (State.finish { s with acc := a } .ok)
  /-- CRC_BYTE (40_crc.md R72). -/
  | byte (b : Byte) (idle : s.eng = .idle) : Effect s { s with acc := crcStep s.acc b }
  /-- A DECODE that fails (41_frame_codec.md R74). -/
  | rejected (c : ResultCode) : Effect s (s.clearDecode.finish c)
  /-- A DECODE that succeeds (41_frame_codec.md R74). -/
  | decoded (f : List Byte) (regs : DecodeRegs) (fits : s.rxLen.toNat ≤ s.params.rxCap.toNat)
      (read : s.rxs 0 s.rxLen.toNat = .ok f) (frame : decodeFrame f = .ok regs) :
      Effect s (State.finish { s.clearParse with dec := regs } .ok)
  /-- ENCODE or BUILD_ACK that fails (41_frame_codec.md R78, R80). -/
  | noFrame (c : ResultCode) : Effect s (s.clearTxLen.finish c)
  /-- ENCODE that succeeds (41_frame_codec.md R78). -/
  | encoded (p : List Byte) (fits : s.txPlen.toNat + 6 ≤ s.params.txCap.toNat)
      (read : s.txs 5 s.txPlen.toNat = .ok p) :
      Effect s (State.finish
        { s with txbuf := writeEnvelope s.txbuf p, txLen := BitVec.ofNat 16 (s.txPlen.toNat + 6) } .ok)
  /-- BUILD_ACK that succeeds (41_frame_codec.md R80). -/
  | acked (a : List Byte) (fits : a.length + 6 ≤ s.params.txCap.toNat) :
      Effect s (State.finish
        { s with
          txbuf := writeEnvelope (s.txbuf.writeBytes 5 a) a
          txPlen := BitVec.ofNat 16 a.length
          txLen := BitVec.ofNat 16 (a.length + 6) } .ok)
  /-- PARSE with no frame (42_parser.md R83). -/
  | notParsed (noFrame : s.dec.frameOk = false) : Effect s (s.clearParse.finish .noFrame)
  /-- PARSE of a frame's payload (42_parser.md R83). -/
  | parsed (p : List Byte) (frame : s.dec.frameOk = true) (read : s.payload = .ok p) :
      Effect s (State.finish { s with prs := parsePayload p } (parseCode p))
  /-- NORMALIZE that succeeds (42_parser.md R91). -/
  | normalized (bs : List Byte) (fits : s.rxLen.toNat ≤ s.params.rxCap.toNat)
      (inside : s.span.off.toNat + s.span.len.toNat ≤ s.rxLen.toNat) (read : s.rxSpan s.span = .ok bs) :
      Effect s (State.finish
        { s with normbuf := s.normbuf.writeBytes 0 (normBytes bs), normLen := BitVec.ofNat 16 (normBytes bs).length } .ok)
  /-- SRST (43_control.md R97). -/
  | reset : Effect s s.resetState

theorem execCrcRx_next {s t : State} (h : execCrcRx s = .next t) : Effect s t := by
  rcases withSpanOperand_next h with rfl | rfl | ⟨_, _, bs, _, hk⟩
  · exact .code _
  · exact .code _
  · cases hk
    exact .acc _

theorem execCrcByte_next {b : Byte} {s t : State} (h : execCrcByte b s = .next t) : Effect s t := by
  unfold execCrcByte at h
  split at h
  · cases h
  · cases h
    exact .byte b ‹_›

theorem execDecode_next {s t : State} (h : execDecode s = .next t) : Effect s t := by
  unfold execDecode at h
  split at h
  · cases h
    exact .rejected _
  · obtain ⟨f, hr, hk⟩ := withBytes_next h
    split at hk
    · cases hk
      exact .rejected _
    · cases hk
      exact .decoded f _ (by omega) hr ‹_›

theorem execEncode_next {s t : State} (h : execEncode s = .next t) : Effect s t := by
  unfold execEncode at h
  split at h
  · cases h
    exact .noFrame _
  · obtain ⟨p, hr, hk⟩ := withBytes_next h
    cases hk
    exact .encoded p (by omega) hr

theorem sendAck_effect (s : State) (a : List Byte) : Effect s (sendAck s a) := by
  unfold sendAck
  split
  · exact .noFrame _
  · exact .acked a (by omega)

theorem execBuildAck_next {s t : State} (h : execBuildAck s = .next t) : Effect s t := by
  unfold execBuildAck at h
  split at h
  · cases h
    exact .noFrame _
  · split at h
    · cases h
      exact .noFrame _
    · obtain ⟨seq, _, h⟩ := withBytes_next h
      obtain ⟨rcv, _, h⟩ := withBytes_next h
      obtain ⟨line, _, h⟩ := withBytes_next h
      obtain ⟨acct, _, h⟩ := withBytes_next h
      cases h
      exact sendAck_effect s _

theorem execParse_next {s t : State} (h : execParse s = .next t) : Effect s t := by
  unfold execParse at h
  cases hf : s.dec.frameOk with
  | false =>
    rw [hf] at h
    cases h
    exact .notParsed hf
  | true =>
    rw [hf] at h
    obtain ⟨p, hr, hk⟩ := withBytes_next h
    cases hk
    exact .parsed p hf hr

theorem execNormalize_next {s t : State} (h : execNormalize s = .next t) : Effect s t := by
  rcases withSpanOperand_next h with rfl | rfl | ⟨h1, h2, bs, hr, hk⟩
  · exact .code _
  · exact .code _
  · cases hk
    exact .normalized bs h1 h2 hr

/-- Everything a command can do when it answers a next state. -/
theorem exec_next {i : Instr} {s t : State} (h : exec i s = .next t) : Effect s t := by
  cases i with
  | nop =>
    cases h
    exact .code _
  | crcInit =>
    cases h
    exact .acc _
  | crcRx => exact execCrcRx_next h
  | decode => exact execDecode_next h
  | encode => exact execEncode_next h
  | buildAck => exact execBuildAck_next h
  | parse => exact execParse_next h
  | normalize => exact execNormalize_next h
  | srst =>
    cases h
    exact .reset
  | crcByte b => exact execCrcByte_next h
  | illegal op =>
    cases h
    exact .code _

/-- The next states a step can lead to, from the state with its oldest input taken. -/
inductive StepEffect (s : State) : State → Prop where
  /-- An engine's turn with no pending command. -/
  | wait : StepEffect s s
  /-- A command that runs. -/
  | command {t : State} (e : Effect s t) : StepEffect s t
  /-- A hard reset (70_reset_and_hazards.md R110, R112). -/
  | hardReset : StepEffect s s.resetState
  /-- A host read (20_memory.md R46). -/
  | read (d : BusData) : StepEffect s (s.receive d)
  /-- A host write to a register, made while no command is pending (70_reset_and_hazards.md R114). -/
  | writeReg (d : Word) (r : Reg) (idle : s.eng = .idle) : StepEffect s (s.writeReg d r)
  /-- A host write to a byte inside a buffer, made while no command is pending (70_reset_and_hazards.md R114). -/
  | writeBuf (a i : Nat) (b : Byte) (buf : Buffer) (idle : s.eng = .idle)
      (place : regionOf s.params a = .window buf i) : StepEffect s (s.writeBuf i b buf)

theorem popInput_of_nil {s : State} (h : s.inputs = []) : s.popInput = s := by
  cases s
  cases h
  rfl

theorem engineTurn_next {s t : State} (h : (match engineTurn s with
    | .command i u => exec i u
    | .other o => o) = .next t) : StepEffect s t := by
  unfold engineTurn at h
  split at h
  · rename_i i u hu
    split at hu
    · cases hu
    · cases hu
      exact .command (exec_next h)
  · rename_i o ho
    split at ho
    · cases ho
      cases h
      exact .wait
    · cases ho

theorem readTarget_next {a : Nat} {tg : Target} {s t : State} (h : readTarget a tg s = .next t) :
    StepEffect s t := by
  unfold readTarget at h
  split at h
  · cases h
  · split at h
    · cases h
      exact .read _
    · split at h
      · cases h
      · cases h
        exact .read _

theorem hostRead_next {a w : Nat} {s t : State} (h : hostRead a w s = .next t) : StepEffect s t := by
  unfold hostRead at h
  split at h
  · cases h
  · split at h
    · cases h
    · exact readTarget_next h

/-- No write that passes the BUSY check is made while a command is pending. -/
theorem idle_of_write {s : State} {tg : Target} (h : hazard s tg .write = false) : s.eng = .idle := by
  cases he : s.eng with
  | idle => rfl
  | busy op => simp [hazard, State.busy, he, Eng.isBusy] at h

theorem busTarget_buf {p : Params} {a w i : Nat} {dir : Direction} {b : Buffer}
    (h : busTarget p a w dir = .ok (.buf b i)) : regionOf p a = .window b i := by
  unfold busTarget at h
  split at h
  · cases h
  · split at h
    · cases h
    · split at h
      · cases h
      · split at h <;> cases h
  · split at h
    · cases h
    · split at h
      · cases h
      · cases h
        assumption

theorem writeTarget_next {a w : Nat} {tg : Target} {d : Word} {s t : State}
    (hb : busTarget s.params a w .write = .ok tg) (h : writeTarget a tg d s = .next t) : StepEffect s t := by
  unfold writeTarget at h
  split at h
  · cases h
  · rename_i hz
    have hi := idle_of_write (by simpa using hz)
    split at h
    · cases h
      exact .writeReg d _ hi
    · cases h
      exact .writeBuf a _ _ _ hi (busTarget_buf hb)

theorem hostWriteTurn_next {a w : Nat} {d : Word} {s t : State} (h : (match hostWriteTurn a w d s with
    | .command i u => exec i u
    | .other o => o) = .next t) : StepEffect s t := by
  unfold hostWriteTurn at h
  cases ho : offsetOf s.params a with
  | error f => simp [ho] at h
  | ok off =>
    cases hb : busTarget s.params off w .write with
    | error f => simp [ho, hb] at h
    | ok tg =>
      by_cases hd : tg = .reg .crcDin
      · simp only [ho, hb, if_pos hd] at h
        exact .command (exec_next h)
      · simp only [ho, hb, if_neg hd] at h
        exact writeTarget_next hb h

/-- Everything a step can do when it answers a next state. -/
theorem step_next {s t : State} (h : step s = .next t) : StepEffect s.popInput t := by
  unfold step at h
  cases hin : s.inputs with
  | nil =>
    simp only [nextTurn, hin] at h
    rw [popInput_of_nil hin]
    exact engineTurn_next h
  | cons x rest =>
    cases x with
    | engine =>
      simp only [nextTurn, hin] at h
      exact engineTurn_next h
    | read a w =>
      simp only [nextTurn, hin] at h
      exact hostRead_next h
    | write a w d =>
      simp only [nextTurn, hin] at h
      exact hostWriteTurn_next h
    | hardReset =>
      simp only [nextTurn, hin] at h
      cases h
      exact .hardReset

end Sys2Proof.Machine
end

