-- ==== Sys2Proof/Laws/Bus.lean ====
section
/-! SUPPORT. The address map and the bus checks (20_memory.md R41, R45): which offsets are in which window, and what the
checks answer for an access to a register or a byte. -/

namespace Sys2Proof.Machine

/-- The capacity of a buffer (10_state.md R38). -/
def bufferCap (p : Params) : Buffer → Nat
  | .rx => p.rxCap.toNat
  | .tx => p.txCap.toNat
  | .nb => p.rxCap.toNat

/-- The offset of a buffer's window (20_memory.md R41). -/
def windowBase : Buffer → Nat
  | .rx => 0x10000
  | .tx => 0x20000
  | .nb => 0x30000

/-- An offset lies in a window exactly where it is the window's offset and an index inside the buffer. -/
theorem regionOf_window_iff (p : Params) (a i : Nat) (b : Buffer) :
    regionOf p a = .window b i ↔ a = windowBase b + i ∧ i < bufferCap p b := by
  have h1 := p.rxCap.isLt
  have h2 := p.txCap.isLt
  unfold regionOf
  by_cases c0 : a < 0x60
  · rw [if_pos c0]
    cases b <;> simp [windowBase] <;> omega
  · rw [if_neg c0]
    by_cases c1 : 0x10000 ≤ a ∧ a < 0x10000 + p.rxCap.toNat
    · rw [if_pos c1]
      cases b <;> simp [windowBase, bufferCap] <;> omega
    · rw [if_neg c1]
      by_cases c2 : 0x20000 ≤ a ∧ a < 0x20000 + p.txCap.toNat
      · rw [if_pos c2]
        cases b <;> simp [windowBase, bufferCap] <;> omega
      · rw [if_neg c2]
        by_cases c3 : 0x30000 ≤ a ∧ a < 0x30000 + p.rxCap.toNat
        · rw [if_pos c3]
          cases b <;> simp [windowBase, bufferCap] <;> omega
        · rw [if_neg c3]
          cases b <;> simp [windowBase, bufferCap] <;> omega

/-- A byte of a window is the buffer's byte. -/
theorem byteAtOffset_window (s : State) (b : Buffer) (i : Nat) (h : i < bufferCap s.params b) :
    s.byteAtOffset (windowBase b + i) = (s.buffer b).read i := by
  unfold State.byteAtOffset
  rw [(regionOf_window_iff s.params _ i b).2 ⟨rfl, h⟩]

/-- Two states with the same capacities whose buffers read alike at every index read alike at every offset. -/
theorem byteAtOffset_congr (s t : State) (hp : t.params = s.params) (a : Nat)
    (h : ∀ b i, a = windowBase b + i → (t.buffer b).read i = (s.buffer b).read i) :
    t.byteAtOffset a = s.byteAtOffset a := by
  unfold State.byteAtOffset
  rw [hp]
  cases hr : regionOf s.params a with
  | registers => rfl
  | reserved => rfl
  | window b i => exact h b i ((regionOf_window_iff s.params a i b).1 hr).1

@[simp] theorem offsetOf_base_add (p : Params) (a : Nat) : offsetOf p (p.base + a) = .ok a := by
  simp [offsetOf]

/-- The registers' region (20_memory.md R41). -/
theorem regionOf_register (p : Params) (a : Nat) (h : a < 0x60) : regionOf p a = .registers := by
  rw [regionOf, if_pos h]

@[simp] theorem offsetOf_base (p : Params) : offsetOf p p.base = .ok 0 := by
  simp [offsetOf]

theorem lt_of_regionOf_registers {p : Params} {a : Nat} (h : regionOf p a = .registers) : a < 0x60 := by
  unfold regionOf at h
  by_contra hc
  rw [if_neg hc] at h
  by_cases c1 : 0x10000 ≤ a ∧ a < 0x10000 + p.rxCap.toNat
  · rw [if_pos c1] at h
    cases h
  · rw [if_neg c1] at h
    by_cases c2 : 0x20000 ≤ a ∧ a < 0x20000 + p.txCap.toNat
    · rw [if_pos c2] at h
      cases h
    · rw [if_neg c2] at h
      by_cases c3 : 0x30000 ≤ a ∧ a < 0x30000 + p.rxCap.toNat
      · rw [if_pos c3] at h
        cases h
      · rw [if_neg c3] at h
        cases h

/-- The bus accepts an aligned 32-bit access to a register, a write only where it is not RO (20_memory.md R44,
R45). -/
theorem busTarget_register (p : Params) {a : Nat} {dir : Direction} {r : Reg} (h : a < 0x60)
    (hr : regAt a = some r) (hd : dir = .write → r.readOnly = false) : busTarget p a 4 dir = .ok (.reg r) := by
  unfold busTarget
  rw [regionOf_register p a h]
  simp only [hr]
  rw [if_neg (by simp), if_neg]
  rintro ⟨h1, h2⟩
  rw [hd h1] at h2
  cases h2

/-- The bus accepts a one-byte access to a window, a write only where it is not NORMBUF's (20_memory.md R42, R45). -/
theorem busTarget_window (p : Params) {i : Nat} {dir : Direction} {b : Buffer} (h : i < bufferCap p b)
    (hd : dir = .write → b ≠ .nb) : busTarget p (windowBase b + i) 1 dir = .ok (.buf b i) := by
  unfold busTarget
  rw [(regionOf_window_iff p _ i b).2 ⟨rfl, h⟩]
  simp only
  rw [if_neg (by simp), if_neg]
  rintro ⟨h1, h2⟩
  exact hd h1 h2

/-- An access the bus accepts as a register's is a 32-bit access to that register's offset. -/
theorem busTarget_reg_inv {p : Params} {a w : Nat} {dir : Direction} {r : Reg}
    (h : busTarget p a w dir = .ok (.reg r)) : a < 0x60 ∧ w = 4 ∧ regAt a = some r := by
  unfold busTarget at h
  split at h
  · cases h
  · rename_i hreg
    split at h
    · cases h
    · rename_i hw
      split at h
      · cases h
      · rename_i r' hr
        split at h
        · cases h
        · cases h
          exact ⟨lt_of_regionOf_registers hreg, by simpa using hw, hr⟩
  · split at h
    · cases h
    · split at h <;> cases h

/-! ### What a host access's step is -/

theorem popInput_cons {s : State} {x : Input} {rest : List Input} (h : s.inputs = x :: rest) :
    s.popInput = { s with inputs := rest } := by
  simp [State.popInput, h]

theorem step_read_error {s : State} {a w : Nat} {rest : List Input} {f : Fault}
    (h : s.inputs = .read (s.params.base + a) w :: rest) (hb : busTarget s.params a w .read = .error f) :
    step s = .fault f := by
  simp [step, nextTurn, h, hostRead, hb]

theorem step_read {s : State} {a w : Nat} {rest : List Input} {t : Target}
    (h : s.inputs = .read (s.params.base + a) w :: rest) (hb : busTarget s.params a w .read = .ok t) :
    step s = readTarget a t s.popInput := by
  simp [step, nextTurn, h, hostRead, hb]

theorem step_write_error {s : State} {a w : Nat} {d : Word} {rest : List Input} {f : Fault}
    (h : s.inputs = .write (s.params.base + a) w d :: rest) (hb : busTarget s.params a w .write = .error f) :
    step s = .fault f := by
  simp [step, nextTurn, h, hostWriteTurn, hb]

theorem step_write {s : State} {a w : Nat} {d : Word} {rest : List Input} {t : Target}
    (h : s.inputs = .write (s.params.base + a) w d :: rest) (hb : busTarget s.params a w .write = .ok t)
    (ht : t ≠ .reg .crcDin) : step s = writeTarget a t d s.popInput := by
  simp [step, nextTurn, h, hostWriteTurn, hb, ht]

theorem readTarget_idle {a : Nat} {r : Reg} {s : State} (he : s.eng = .idle) :
    readTarget a (.reg r) s = .next (s.receive (.word (s.readReg r))) := by
  simp [readTarget, hazard, State.busy, he, Eng.isBusy]

theorem writeTarget_reg_idle {a : Nat} {r : Reg} {d : Word} {s : State} (he : s.eng = .idle) :
    writeTarget a (.reg r) d s = .next (s.writeReg d r) := by
  simp [writeTarget, hazard, State.busy, he, Eng.isBusy]

theorem writeTarget_buf_idle {a i : Nat} {b : Buffer} {d : Word} {s : State} (he : s.eng = .idle) :
    writeTarget a (.buf b i) d s = .next (s.writeBuf i (lowByte d) b) := by
  simp [writeTarget, hazard, State.busy, he, Eng.isBusy]

end Sys2Proof.Machine
end

