-- ==== Sys2Proof/Laws/Checksum.lean ====
section
/-! SUPPORT. The checksum fold over pieces (40_crc.md R70), and the linearity of the shift of the reflected
construction. -/

namespace Sys2Proof.Machine

@[simp] theorem crcFold_nil (c : Half) : crcFold c [] = c := rfl

@[simp] theorem crcFold_cons (c : Half) (b : Byte) (s : List Byte) :
    crcFold c (b :: s) = crcFold (crcStep c b) s := rfl

theorem crcFold_append (c : Half) (s t : List Byte) : crcFold c (s ++ t) = crcFold (crcFold c s) t :=
  List.foldl_append

/-- The shift is linear over XOR. -/
theorem crcShift_xor (u v : Half) : crcShift (u ^^^ v) = crcShift u ^^^ crcShift v := by
  unfold crcShift
  rw [BitVec.getLsbD_xor, BitVec.ushiftRight_xor_distrib]
  cases u.getLsbD 0 <;> cases v.getLsbD 0 <;> simp
  · ac_rfl
  · ac_rfl
  · rw [show ∀ a b c : Half, a ^^^ c ^^^ (b ^^^ c) = a ^^^ b ^^^ (c ^^^ c) by intros; ac_rfl]
    simp

theorem crcShifts_xor (n : Nat) (u v : Half) : crcShifts n (u ^^^ v) = crcShifts n u ^^^ crcShifts n v := by
  induction n generalizing u v with
  | zero => rfl
  | succ n ih => simp [crcShifts, crcShift_xor, ih]

end Sys2Proof.Machine
end

