-- ==== Sys2Proof/Laws/Memory.lean ====
section
/-! SUPPORT. The laws of the buffers: a read after a write, the canonical form, and reading and writing byte strings. -/

namespace Sys2Proof.Machine

@[simp] theorem Memory.read_nil (i : Nat) : Memory.read [] i = none := rfl

@[simp] theorem Memory.writeBytes_nil (m : Memory) (i : Nat) : m.writeBytes i [] = m := by
  cases m <;> rfl

@[simp] theorem Memory.writeBytes_cons (m : Memory) (i : Nat) (b : Byte) (bs : List Byte) :
    m.writeBytes i (b :: bs) = (m.write i b).writeBytes (i + 1) bs := by
  cases m <;> rfl

@[simp] theorem Memory.read_write_same (m : Memory) (i : Nat) (b : Byte) : (m.write i b).read i = some b := by
  induction m with
  | nil => simp [Memory.write, Memory.read]
  | cons c m ih =>
    obtain ⟨a, x⟩ := c
    simp only [Memory.write]
    split
    · simp [Memory.read]
    · split
      · simp [Memory.read]
      · rename_i _ hne
        simp [Memory.read, Ne.symm hne, ih]

theorem Memory.read_write_ne (m : Memory) (i j : Nat) (b : Byte) (h : j ≠ i) :
    (m.write i b).read j = m.read j := by
  induction m with
  | nil => simp [Memory.write, Memory.read, Ne.symm h]
  | cons c m ih =>
    obtain ⟨a, x⟩ := c
    simp only [Memory.write]
    split
    · simp [Memory.read, Ne.symm h]
    · split
      · rename_i _ heq
        subst heq
        simp [Memory.read, Ne.symm h]
      · simp [Memory.read, ih]

theorem Memory.read_write (m : Memory) (i j : Nat) (b : Byte) :
    (m.write i b).read j = if j = i then some b else m.read j := by
  split
  · subst_vars
    exact read_write_same m _ b
  · exact read_write_ne m i j b ‹_›

/-- An index a written cell has is the new one or an old one. -/
theorem Memory.mem_write (m : Memory) (i : Nat) (b : Byte) (c : Host.Cell) (h : c ∈ m.write i b) :
    c = (i, b) ∨ c ∈ m := by
  induction m with
  | nil => simpa [Memory.write] using h
  | cons d m ih =>
    obtain ⟨a, x⟩ := d
    simp only [Memory.write] at h
    split at h
    · simpa using h
    · split at h
      · rcases List.mem_cons.1 h with h | h
        · exact .inl h
        · exact .inr (List.mem_cons_of_mem _ h)
      · rcases List.mem_cons.1 h with h | h
        · exact .inr (h ▸ List.mem_cons_self)
        · exact (ih h).imp_right (List.mem_cons_of_mem _)

theorem Memory.write_wf (m : Memory) (i : Nat) (b : Byte) (h : m.wf) : (m.write i b).wf := by
  induction m with
  | nil => simp [Memory.write]
  | cons c m ih =>
    obtain ⟨a, x⟩ := c
    obtain ⟨hlt, hm⟩ := List.pairwise_cons.1 h
    simp only [Memory.write]
    split
    · rename_i hia
      refine List.pairwise_cons.2 ⟨fun d hd => ?_, h⟩
      rcases List.mem_cons.1 hd with rfl | hd
      · exact hia
      · exact hia.trans (hlt d hd)
    · split
      · rename_i _ heq
        subst heq
        exact List.pairwise_cons.2 ⟨hlt, hm⟩
      · rename_i h1 h2
        refine List.pairwise_cons.2 ⟨fun d hd => ?_, ih hm⟩
        rcases Memory.mem_write m i b d hd with rfl | hd
        · simp only
          omega
        · exact hlt d hd

theorem Memory.write_within (m : Memory) (i cap : Nat) (b : Byte) (h : m.within cap) (hi : i < cap) :
    (m.write i b).within cap := by
  intro c hc
  rcases Memory.mem_write m i b c hc with rfl | hc
  · exact hi
  · exact h c hc

theorem Memory.writeBytes_wf (bs : List Byte) (m : Memory) (i : Nat) (h : m.wf) : (m.writeBytes i bs).wf := by
  induction bs generalizing m i with
  | nil => simpa using h
  | cons b bs ih => simpa using ih _ _ (m.write_wf i b h)

theorem Memory.writeBytes_within (bs : List Byte) (m : Memory) (i cap : Nat) (h : m.within cap)
    (hi : i + bs.length ≤ cap) : (m.writeBytes i bs).within cap := by
  induction bs generalizing m i with
  | nil => simpa using h
  | cons b bs ih =>
    simp only [List.length_cons] at hi
    simpa using ih _ _ (m.write_within i cap b h (by omega)) (by omega)

/-- Reading after writing a byte string: the string inside its place, the old byte outside. -/
theorem Memory.read_writeBytes (bs : List Byte) (m : Memory) (i j : Nat) :
    (m.writeBytes i bs).read j = if i ≤ j ∧ j < i + bs.length then bs[j - i]? else m.read j := by
  induction bs generalizing m i with
  | nil =>
    have h : ¬ (i ≤ j ∧ j < i) := by omega
    simp [h]
  | cons b bs ih =>
    rw [writeBytes_cons, ih, Memory.read_write]
    simp only [List.length_cons]
    by_cases h1 : i + 1 ≤ j ∧ j < i + 1 + bs.length
    · have h2 : i ≤ j ∧ j < i + (bs.length + 1) := by omega
      have h3 : j - i = (j - (i + 1)) + 1 := by omega
      simp [h1, h2, h3]
    · by_cases h4 : j = i
      · subst h4
        simp
      · have h2 : ¬ (i ≤ j ∧ j < i + (bs.length + 1)) := by omega
        rw [if_neg h1, if_neg h4, if_neg h2]

@[simp] theorem Memory.readBytes_zero (buf : Buffer) (m : Memory) (off : Nat) :
    Memory.readBytes buf m off 0 = .ok [] := rfl

/-- What reading a byte string gives, exactly: every byte is written, and they are these. -/
theorem Memory.readBytes_ok_iff (buf : Buffer) (m : Memory) (n off : Nat) (bs : List Byte) :
    Memory.readBytes buf m off n = .ok bs ↔ bs.length = n ∧ ∀ i < n, m.read (off + i) = bs[i]? := by
  induction n generalizing off bs with
  | zero =>
    simp only [readBytes_zero, Except.ok.injEq]
    constructor
    · rintro rfl
      simp
    · rintro ⟨h, -⟩
      exact (List.length_eq_zero_iff.1 h).symm
  | succ n ih =>
    rw [Memory.readBytes]
    cases hr : m.read off with
    | none =>
      simp only [reduceCtorEq, false_iff, not_and]
      intro hl h
      have h0 := h 0 (by omega)
      rw [Nat.add_zero, hr, List.getElem?_eq_getElem (by omega)] at h0
      cases h0
    | some b =>
      cases hq : Memory.readBytes buf m (off + 1) n with
      | error f =>
        simp only [reduceCtorEq, false_iff, not_and]
        intro hl h
        have hall : Memory.readBytes buf m (off + 1) n = .ok bs.tail := by
          refine (ih (off + 1) bs.tail).2 ⟨by simp [hl], fun i hi => ?_⟩
          have := h (i + 1) (by omega)
          rw [show off + 1 + i = off + (i + 1) by omega, this]
          cases bs with
          | nil => simp at hl
          | cons c cs => simp
        rw [hq] at hall
        cases hall
      | ok cs =>
        obtain ⟨hl, hall⟩ := (ih (off + 1) cs).1 hq
        simp only [Except.ok.injEq]
        constructor
        · rintro rfl
          refine ⟨by simp [hl], fun i hi => ?_⟩
          cases i with
          | zero => simpa using hr
          | succ i =>
            rw [show off + (i + 1) = off + 1 + i by omega, hall i (by omega)]
            simp
        · rintro ⟨hl', h⟩
          cases bs with
          | nil => simp at hl'
          | cons c ds =>
            have h0 := h 0 (by omega)
            simp only [Nat.add_zero, hr, List.getElem?_cons_zero, Option.some.injEq] at h0
            have hd : Memory.readBytes buf m (off + 1) n = .ok ds := by
              refine (ih (off + 1) ds).2 ⟨by simpa using hl', fun i hi => ?_⟩
              have := h (i + 1) (by omega)
              rw [show off + 1 + i = off + (i + 1) by omega, this]
              simp
            rw [hq] at hd
            cases hd
            rw [h0]

theorem Memory.readBytes_length {buf : Buffer} {m : Memory} {off n : Nat} {bs : List Byte}
    (h : Memory.readBytes buf m off n = .ok bs) : bs.length = n :=
  ((Memory.readBytes_ok_iff buf m n off bs).1 h).1

/-- Reading back a byte string that was just written gives it. -/
theorem Memory.readBytes_writeBytes (buf : Buffer) (m : Memory) (i : Nat) (bs : List Byte) :
    Memory.readBytes buf (m.writeBytes i bs) i bs.length = .ok bs := by
  refine (Memory.readBytes_ok_iff buf _ _ _ _).2 ⟨rfl, fun k hk => ?_⟩
  rw [Memory.read_writeBytes, if_pos (by omega)]
  simp

/-- Two buffers that read alike over a span give the same bytes there. -/
theorem Memory.readBytes_congr (buf : Buffer) (m m' : Memory) (off n : Nat)
    (h : ∀ i < n, m'.read (off + i) = m.read (off + i)) :
    Memory.readBytes buf m' off n = Memory.readBytes buf m off n := by
  induction n generalizing off with
  | zero => rfl
  | succ n ih =>
    have h0 := h 0 (by omega)
    have h1 := ih (off + 1) (fun i hi => by
      have := h (i + 1) (by omega)
      rwa [show off + (i + 1) = off + 1 + i by omega] at this)
    simp only [Nat.add_zero] at h0
    simp [Memory.readBytes, h0, h1]

/-- A part of a byte string that reads is the part of what it reads as. -/
theorem Memory.readBytes_sub {buf : Buffer} {m : Memory} {off n : Nat} {bs : List Byte}
    (h : Memory.readBytes buf m off n = .ok bs) (k l : Nat) (hkl : k + l ≤ n) :
    Memory.readBytes buf m (off + k) l = .ok ((bs.drop k).take l) := by
  obtain ⟨hl, hall⟩ := (Memory.readBytes_ok_iff buf m n off bs).1 h
  refine (Memory.readBytes_ok_iff buf m l (off + k) _).2 ⟨by simp; omega, fun i hi => ?_⟩
  rw [Nat.add_assoc, hall (k + i) (by omega)]
  simp [hi]

end Sys2Proof.Machine
end

