-- ==== Sys2Proof/Laws/Frame.lean ====
section
/-! SUPPORT. The outbound frame in TXBUF: where the envelope's bytes stand, and that header, payload and end marker read
back as the frame. -/

namespace Sys2Proof.Machine

@[simp] theorem frameHeader_length (p : List Byte) : (frameHeader p).length = 5 := rfl

@[simp] theorem outboundFrame_length (p : List Byte) : (outboundFrame p).length = p.length + 6 := by
  simp [outboundFrame]
  omega

/-- The envelope of a payload changes the first five bytes and the byte after the payload, and no other. -/
theorem read_writeEnvelope (tx : Memory) (p : List Byte) (j : Nat) :
    (writeEnvelope tx p).read j =
      if j = 5 + p.length then some 0x0D#8 else if j < 5 then (frameHeader p)[j]? else tx.read j := by
  unfold writeEnvelope
  rw [Memory.read_write, Memory.read_writeBytes]
  simp

/-- The payload of an envelope stays as it was. -/
theorem readBytes_payload_writeEnvelope (tx : Memory) (p : List Byte) :
    Memory.readBytes .tx (writeEnvelope tx p) 5 p.length = Memory.readBytes .tx tx 5 p.length := by
  refine Memory.readBytes_congr _ _ _ _ _ fun i hi => ?_
  rw [read_writeEnvelope, if_neg (by omega), if_neg (by omega)]

/-- Round a payload that stands at `TX[5..)`, the envelope makes the outbound frame. -/
theorem readBytes_writeEnvelope (tx : Memory) (p : List Byte)
    (h : Memory.readBytes .tx tx 5 p.length = .ok p) :
    Memory.readBytes .tx (writeEnvelope tx p) 0 (p.length + 6) = .ok (outboundFrame p) := by
  obtain ⟨-, hp⟩ := (Memory.readBytes_ok_iff _ _ _ _ _).1 h
  refine (Memory.readBytes_ok_iff _ _ _ _ _).2 ⟨by simp, fun i hi => ?_⟩
  rw [Nat.zero_add, read_writeEnvelope]
  unfold outboundFrame
  split
  · subst_vars
    rw [List.getElem?_append_right (by simp)]
    simp
  · split
    · rw [List.append_assoc, List.getElem?_append_left (by simpa)]
    · have hk : i - 5 < p.length := by omega
      have hq := hp (i - 5) hk
      rw [show 5 + (i - 5) = i by omega] at hq
      rw [hq, List.getElem?_append_left (by simp; omega), List.getElem?_append_right (by simp; omega)]
      simp

end Sys2Proof.Machine
end

