-- ==== Sys2Proof/Laws/Grammar.lean ====
section
/-! SUPPORT. The matcher's parts: what a run of a class is, what each token's matcher answers, and the properties of the
normaliser. -/

namespace Sys2Proof.Machine

/-! ### Runs and slices -/

theorem slice_length (p : List Byte) (i j : Nat) (h : j ≤ p.length) : (slice p i j).length = j - i := by
  simp [slice]
  omega

/-- A slice in two parts. -/
theorem slice_append (p : List Byte) (i j k : Nat) (h1 : i ≤ j) (h2 : j ≤ k) :
    slice p i k = slice p i j ++ slice p j k := by
  unfold slice
  rw [show k - i = (j - i) + (k - j) by omega, List.take_add, List.drop_drop, show i + (j - i) = j by omega]

/-- A slice of one byte. -/
theorem slice_one (p : List Byte) (i : Nat) (b : Byte) (h : isAt p i b = true) : slice p i (i + 1) = [b] := by
  have h1 : p[i]? = some b := by simpa [isAt] using h
  unfold slice
  rw [show i + 1 - i = 1 by omega, List.take_one, List.head?_drop, h1]
  rfl

theorem isAt_lt {p : List Byte} {i : Nat} {b : Byte} (h : isAt p i b = true) : i < p.length := by
  have h1 : p[i]? = some b := by simpa [isAt] using h
  exact (List.getElem?_eq_some_iff.1 h1).1

theorem run_le (p : List Byte) (i : Nat) (c : Byte → Bool) : run p i c ≤ p.length - i := by
  have := (List.takeWhile_sublist c (l := p.drop i)).length_le
  simpa [run] using this

/-- The bytes of a run are those the class lets through. -/
theorem slice_run (p : List Byte) (i : Nat) (c : Byte → Bool) :
    slice p i (i + run p i c) = (p.drop i).takeWhile c := by
  unfold slice run
  rw [Nat.add_sub_cancel_left]
  exact (List.prefix_iff_eq_take.1 (List.takeWhile_prefix c)).symm

theorem run_all (p : List Byte) (i : Nat) (c : Byte → Bool) : ∀ b ∈ slice p i (i + run p i c), c b = true := by
  rw [slice_run]
  exact fun b hb => List.mem_takeWhile_imp hb

/-- The byte that ends a run is not of its class. -/
theorem run_stops (p : List Byte) (i : Nat) (c : Byte → Bool) (b : Byte)
    (h : p[i + run p i c]? = some b) : c b = false := by
  have hd : (p.drop i)[((p.drop i).takeWhile c).length]? = some b := by
    rw [List.getElem?_drop]
    exact h
  generalize p.drop i = q at hd
  induction q with
  | nil => simp at hd
  | cons x q ih =>
    by_cases hx : c x = true
    · simp only [List.takeWhile_cons, hx, if_true, List.length_cons, List.getElem?_cons_succ] at hd
      exact ih hd
    · simp only [List.takeWhile_cons, hx] at hd
      simp at hd
      subst hd
      simpa using hx

/-- The run of a token that is followed by a byte outside its class is the token. -/
theorem run_token (pre tok rest : List Byte) (d : Byte) (c : Byte → Bool) (h : ∀ b ∈ tok, c b = true)
    (hd : c d = false) : run (pre ++ tok ++ d :: rest) pre.length c = tok.length := by
  unfold run
  rw [List.append_assoc, List.drop_left, List.takeWhile_append_of_pos h, List.takeWhile_cons]
  simp [hd]

/-- The byte at a place of a string that is given in parts. -/
theorem isAt_append (pre rest : List Byte) (b d : Byte) :
    isAt (pre ++ d :: rest) pre.length b = (d == b) := by
  simp [isAt]

/-- The bytes of a part of a string. -/
theorem slice_part (pre tok rest : List Byte) :
    slice (pre ++ tok ++ rest) pre.length (pre.length + tok.length) = tok := by
  unfold slice
  rw [List.append_assoc, List.drop_left, Nat.add_sub_cancel_left, List.take_left]

/-! ### What each token's matcher answers -/

@[simp] theorem Token.bytes_mk (p : List Byte) (o n : Nat) : Token.bytes p ⟨o, n⟩ = slice p o (o + n) := rfl

theorem inClass_run (p : List Byte) (i : Nat) (c : Byte → Bool) (lo hi : Nat) (h1 : lo ≤ run p i c)
    (h2 : run p i c ≤ hi) (h3 : i ≤ p.length) : InClass c lo hi (slice p i (i + run p i c)) := by
  have hl : (slice p i (i + run p i c)).length = run p i c := by
    have := run_le p i c
    rw [slice_length _ _ _ (by omega)]
    omega
  exact ⟨by omega, by omega, run_all p i c⟩

/-- A token that runs on stops at a byte outside its class, if it does not end the string. -/
theorem isAt_of_run {p : List Byte} {i : Nat} {c : Byte → Bool} {d : Byte} (hd : ∀ b, c b = false → b = d)
    (h : i + run p i c < p.length) : isAt p (i + run p i c) d = true := by
  have hg := List.getElem?_eq_getElem h
  have := hd _ (run_stops p i c _ hg)
  simp [isAt, hg, this]

theorem eq_of_not_isNotQuote (b : Byte) (h : isNotQuote b = false) : b = 0x22#8 := by
  simpa [isNotQuote] using h

theorem eq_of_not_isNotRBracket (b : Byte) (h : isNotRBracket b = false) : b = 0x5D#8 := by
  simpa [isNotRBracket] using h

theorem matchId_some {p : List Byte} {i s : Nat} {t : Token} (h : matchId p i = some (t, s)) :
    i < s ∧ s ≤ p.length ∧ slice p i s = [0x22#8] ++ t.bytes p ++ [0x22#8] ∧
      InClass isNotQuote 1 p.length (t.bytes p) ∧ t = ⟨i + 1, s - i - 2⟩ := by
  unfold matchId at h
  split at h
  · rename_i hq
    simp only at h
    split at h
    · cases h
    · rename_i hk
      have hle := run_le p (i + 1) isNotQuote
      have hi := isAt_lt hq
      cases h
      have hr := inClass_run p (i + 1) isNotQuote 1 p.length (by omega) (by omega) (by omega)
      have he := isAt_of_run (p := p) (i := i + 1) eq_of_not_isNotQuote (by omega)
      refine ⟨by omega, by omega, ?_, by simpa using hr, by simp; omega⟩
      rw [slice_append p i (i + 1) _ (by omega) (by omega),
        slice_append p (i + 1) (i + 1 + run p (i + 1) isNotQuote) _ (by omega) (by omega),
        slice_one p i _ hq, slice_one p _ _ he]
      simp
  · cases h

theorem matchSeq_some {p : List Byte} {i s : Nat} {t : Token} (h : matchSeq p i = some (t, s)) :
    t = ⟨i, 4⟩ ∧ s = i + 4 ∧ s ≤ p.length ∧ slice p i s = t.bytes p ∧ InClass isDigit 4 4 (t.bytes p) := by
  unfold matchSeq at h
  split at h
  · cases h
  · rename_i hn
    cases h
    have h1 : i + 4 ≤ p.length := by omega
    have h2 : (slice p i (i + 4)).all isDigit = true := by
      by_contra hc
      exact hn (.inr hc)
    have hl := slice_length p i (i + 4) h1
    exact ⟨rfl, rfl, h1, rfl, by simp; omega, by simp; omega, by simpa using h2⟩

theorem matchRcv_some {p : List Byte} {i s : Nat} {o : Option Token} (hi : i ≤ p.length)
    (h : matchRcv p i = some (o, s)) :
    i ≤ s ∧ s ≤ p.length ∧ slice p i s = rcvText p o ∧
      (∀ t, o = some t → t = ⟨i + 1, s - i - 1⟩ ∧ InClass isHex 1 6 (t.bytes p)) ∧ (o = none → s = i) := by
  unfold matchRcv at h
  split at h
  · rename_i hq
    simp only at h
    split at h
    · rename_i hu
      have hlt := isAt_lt hq
      have hlt2 := isAt_lt hu.2.2
      cases h
      have hr := inClass_run p (i + 1) isHex 1 6 hu.1 hu.2.1 (by omega)
      refine ⟨by omega, by omega, ?_, ?_, by simp⟩
      · rw [slice_append p i (i + 1) _ (by omega) (by omega), slice_one p i _ hq]
        simp [rcvText]
      · rintro t ht
        cases ht
        exact ⟨by simp; omega, by simpa using hr⟩
    · cases h
  · cases h
    exact ⟨le_refl _, hi, by simp [slice, rcvText], by simp, by simp⟩

theorem matchLine_some {p : List Byte} {i s : Nat} {t : Token} (h : matchLine p i = some (t, s)) :
    i < s ∧ s ≤ p.length ∧ slice p i s = [0x4C#8] ++ t.bytes p ++ [0x23#8] ∧
      InClass isHex 1 6 (t.bytes p) ∧ t = ⟨i + 1, s - i - 2⟩ := by
  unfold matchLine at h
  split at h
  · rename_i hq
    simp only at h
    split at h
    · rename_i hv
      have hlt := isAt_lt hq
      have hlt2 := isAt_lt hv.2.2
      cases h
      have hr := inClass_run p (i + 1) isHex 1 6 hv.1 hv.2.1 (by omega)
      refine ⟨by omega, by omega, ?_, by simpa using hr, by simp; omega⟩
      rw [slice_append p i (i + 1) _ (by omega) (by omega),
        slice_append p (i + 1) (i + 1 + run p (i + 1) isHex) _ (by omega) (by omega),
        slice_one p i _ hq, slice_one p _ _ hv.2.2]
      simp
    · cases h
  · cases h

theorem matchAcct_some {p : List Byte} {i s : Nat} {t : Token} (h : matchAcct p i = some (t, s)) :
    i < s ∧ s ≤ p.length ∧ slice p i s = t.bytes p ++ [0x5B#8] ∧
      InClass isWordChar 1 p.length (t.bytes p) ∧ t = ⟨i, s - i - 1⟩ := by
  unfold matchAcct at h
  simp only at h
  split at h
  · rename_i hw
    have hlt := isAt_lt hw.2
    have hle := run_le p i isWordChar
    cases h
    have hr := inClass_run p i isWordChar 1 p.length hw.1 (by omega) (by omega)
    refine ⟨by omega, by omega, ?_, by simpa using hr, by simp; omega⟩
    rw [slice_append p i (i + run p i isWordChar) _ (by omega) (by omega), slice_one p _ _ hw.2]
    simp
  · cases h

theorem matchMdata_some {p : List Byte} {i s : Nat} {t : Token} (h : matchMdata p i = some (t, s)) :
    i < s ∧ s ≤ p.length ∧ slice p i s = t.bytes p ++ [0x5D#8] ∧
      InClass isNotRBracket 1 p.length (t.bytes p) ∧ t = ⟨i, s - i - 1⟩ := by
  unfold matchMdata at h
  simp only at h
  split at h
  · rename_i hx
    have hle := run_le p i isNotRBracket
    cases h
    have hr := inClass_run p i isNotRBracket 1 p.length hx.1 (by omega) (by omega)
    have he := isAt_of_run eq_of_not_isNotRBracket hx.2
    refine ⟨by omega, by omega, ?_, by simpa using hr, by simp; omega⟩
    rw [slice_append p i (i + run p i isNotRBracket) _ (by omega) (by omega), slice_one p _ _ he]
    simp
  · cases h

theorem matchExt_spec (p : List Byte) (i : Nat) (hi : i ≤ p.length) :
    i ≤ (matchExt p i).2 ∧ (matchExt p i).2 ≤ p.length ∧
      slice p i (matchExt p i).2 = extText p (matchExt p i).1 ∧
      (∀ t, (matchExt p i).1 = some t →
        t = ⟨i + 1, (matchExt p i).2 - i - 2⟩ ∧ InClass isNotRBracket 1 p.length (t.bytes p)) ∧
      ((matchExt p i).1 = none → (matchExt p i).2 = i) := by
  have hnone : slice p i i = [] := by simp [slice]
  unfold matchExt
  split
  · rename_i hq
    simp only
    split
    · rename_i hy
      have hle := run_le p (i + 1) isNotRBracket
      have hr := inClass_run p (i + 1) isNotRBracket 1 p.length hy.1 (by omega) (by omega)
      have he := isAt_of_run eq_of_not_isNotRBracket hy.2
      refine ⟨by omega, by omega, ?_, ?_, by simp⟩
      · rw [slice_append p i (i + 1) _ (by omega) (by omega),
          slice_append p (i + 1) (i + 1 + run p (i + 1) isNotRBracket) _ (by omega) (by omega),
          slice_one p i _ hq, slice_one p _ _ he]
        simp [extText]
      · rintro t ht
        cases ht
        exact ⟨by simp; omega, by simpa using hr⟩
    · exact ⟨le_refl _, hi, by simpa [extText] using hnone, by simp, by simp⟩
  · exact ⟨le_refl _, hi, by simpa [extText] using hnone, by simp, by simp⟩

theorem matchTs_spec (p : List Byte) (i : Nat) (hi : i ≤ p.length) :
    i ≤ (matchTs p i).2 ∧ (matchTs p i).2 ≤ p.length ∧
      slice p i (matchTs p i).2 = tsText p (matchTs p i).1 ∧
      (∀ t, (matchTs p i).1 = some t →
        t = ⟨i + 1, p.length - (i + 1)⟩ ∧ 1 ≤ (t.bytes p).length ∧ (matchTs p i).2 = p.length) ∧
      ((matchTs p i).1 = none → (matchTs p i).2 = i) := by
  unfold matchTs
  split
  · rename_i h
    refine ⟨by omega, le_refl _, ?_, ?_, by simp⟩
    · rw [slice_append p i (i + 1) _ (by omega) (by omega), slice_one p i _ h.2]
      simp only [tsText, Token.bytes_mk]
      rw [show i + 1 + (p.length - (i + 1)) = p.length by omega]
      rfl
    · rintro t ht
      cases ht
      refine ⟨rfl, ?_, rfl⟩
      simp only [Token.bytes_mk]
      rw [slice_length _ _ _ (by omega)]
      omega
  · exact ⟨le_refl _, hi, by simp [slice, tsText], by simp, by simp⟩

/-- An extension group that stands there is reported, with its own bytes. -/
theorem matchExt_present (pre e r : List Byte) (he : InClass isNotRBracket 1 e.length e) :
    matchExt (pre ++ extPart (some e) ++ r) pre.length =
      (some ⟨pre.length + 1, e.length⟩, pre.length + (e.length + 2)) := by
  have h1 : isAt (pre ++ extPart (some e) ++ r) pre.length 0x5B#8 = true := by
    simp [extPart, isAt]
  have h2 : run (pre ++ extPart (some e) ++ r) (pre.length + 1) isNotRBracket = e.length := by
    have := run_token (pre ++ [0x5B#8]) e r 0x5D#8 isNotRBracket he.2.2 (by decide)
    simpa [extPart] using this
  unfold matchExt
  rw [if_pos h1]
  simp only [h2]
  rw [if_pos ⟨he.1, by simp [extPart]; omega⟩]
  simp
  omega

/-- Where no extension group stands, none is reported and the match goes on at the same place. -/
theorem matchExt_absent (pre x : List Byte)
    (h : ∀ e r, InClass isNotRBracket 1 e.length e → x ≠ [0x5B#8] ++ e ++ [0x5D#8] ++ r) :
    matchExt (pre ++ x) pre.length = (none, pre.length) := by
  unfold matchExt
  split
  · rename_i hq
    simp only
    rw [if_neg]
    rintro ⟨hy1, hy2⟩
    have he := isAt_of_run eq_of_not_isNotRBracket hy2
    have hlt := isAt_lt he
    generalize hk : run (pre ++ x) (pre.length + 1) isNotRBracket = k at *
    have hr := inClass_run (pre ++ x) (pre.length + 1) isNotRBracket 1 k (by omega) (by omega) (by omega)
    have hl := slice_length (pre ++ x) (pre.length + 1) (pre.length + 1 + k) (by omega)
    rw [hk] at hr
    have hx : slice (pre ++ x) pre.length (pre ++ x).length = x := by simp [slice]
    refine h (slice (pre ++ x) (pre.length + 1) (pre.length + 1 + k))
      (slice (pre ++ x) (pre.length + 1 + k + 1) (pre ++ x).length) ⟨hr.1, le_refl _, hr.2.2⟩ ?_
    conv_lhs => rw [← hx]
    rw [slice_append _ pre.length (pre.length + 1) _ (by omega) (by omega),
      slice_append _ (pre.length + 1) (pre.length + 1 + k) _ (by omega) (by omega),
      slice_append _ (pre.length + 1 + k) (pre.length + 1 + k + 1) _ (by omega) (by omega),
      slice_one _ _ _ hq, slice_one _ _ _ he]
    simp
  · rfl

/-- A timestamp group that stands there is reported, to the end of the payload. -/
theorem matchTs_present (pre t : List Byte) (ht : t ≠ []) :
    matchTs (pre ++ tsPart (some t)) pre.length =
      (some ⟨pre.length + 1, t.length⟩, (pre ++ tsPart (some t)).length) := by
  have hl := List.length_pos_iff.2 ht
  unfold matchTs
  rw [if_pos ⟨by simp [tsPart]; omega, by simp [tsPart, isAt]⟩]
  simp [tsPart]
  omega

/-- Where no timestamp group stands, none is reported and the match ends. -/
theorem matchTs_absent (pre x : List Byte) (h : ∀ t, t ≠ [] → x ≠ [0x5F#8] ++ t) :
    matchTs (pre ++ x) pre.length = (none, pre.length) := by
  unfold matchTs
  rw [if_neg]
  rintro ⟨hl, hq⟩
  cases x with
  | nil => simp at hl
  | cons d x =>
    rw [isAt_append] at hq
    have hd : d = 0x5F#8 := by simpa using hq
    refine h x ?_ (by rw [hd]; rfl)
    rintro rfl
    simp at hl

/-- The parts of a match, in order: where each token's matcher was asked and what it answered (42_parser.md R84). -/
theorem tryMatch_some {p : List Byte} {i : Nat} {m : Match} (h : tryMatch p i = some m) :
    ∃ s t t' a b c, matchId p i = some (m.id, s) ∧ matchSeq p s = some (m.seq, t) ∧
      matchRcv p t = some (m.rcv, t') ∧ matchLine p t' = some (m.line, a) ∧
      matchAcct p a = some (m.acct, b) ∧ matchMdata p b = some (m.mdata, c) ∧
      m.ext = (matchExt p c).1 ∧ m.ts = (matchTs p (matchExt p c).2).1 ∧ m.start = i ∧
      m.stop = (matchTs p (matchExt p c).2).2 := by
  unfold tryMatch at h
  split at h
  · cases h
  split at h
  · cases h
  split at h
  · cases h
  split at h
  · cases h
  split at h
  · cases h
  split at h
  · cases h
  cases h
  exact ⟨_, _, _, _, _, _, by assumption, by assumption, by assumption, by assumption, by assumption,
    by assumption, rfl, rfl, rfl, rfl⟩

/-- The other way: the parts make a match. -/
theorem tryMatch_of_parts {p : List Byte} {i s t t' a b c : Nat} {id seq line acct mdata : Token}
    {rcv : Option Token} (h1 : matchId p i = some (id, s)) (h2 : matchSeq p s = some (seq, t))
    (h3 : matchRcv p t = some (rcv, t')) (h4 : matchLine p t' = some (line, a))
    (h5 : matchAcct p a = some (acct, b)) (h6 : matchMdata p b = some (mdata, c)) :
    tryMatch p i = some
      { start := i, stop := (matchTs p (matchExt p c).2).2, id := id, seq := seq, rcv := rcv, line := line
        acct := acct, mdata := mdata, ext := (matchExt p c).1, ts := (matchTs p (matchExt p c).2).1 } := by
  unfold tryMatch
  rw [h1]
  simp only [h2, h3, h4, h5, h6]

/-! ### The normaliser -/

/-- After a separator that has been replaced, what follows is normalised as from a fresh start unless it is one more
separator. -/
theorem normFrom_true_of_head {v : List Byte} (h : ∀ b, v.head? = some b → isSep b = false) :
    normFrom true v = normFrom false v := by
  cases v with
  | nil => rfl
  | cons b v =>
    have hb := h b rfl
    simp [normFrom, hb]

theorem normFrom_append_copy (u v : List Byte) (r : Bool) (h : ∀ b ∈ u, isSep b = false) (hu : u ≠ []) :
    normFrom r (u ++ v) = u ++ normFrom false v := by
  induction u generalizing r with
  | nil => exact absurd rfl hu
  | cons b u ih =>
    have hb := h b (by simp)
    by_cases hn : u = []
    · subst hn
      simp [normFrom, hb]
    · have := ih false (fun x hx => h x (by simp [hx])) hn
      simp [normFrom, hb, this]

theorem normFrom_noSep (r : Bool) (s : List Byte) : ∀ b ∈ normFrom r s, isSep b = false := by
  induction s generalizing r with
  | nil => simp [normFrom]
  | cons x s ih =>
    intro b hb
    unfold normFrom at hb
    split at hb
    · split at hb
      · exact ih true b hb
      · rcases List.mem_cons.1 hb with rfl | hb
        · decide
        · exact ih true b hb
    · rename_i hx
      rcases List.mem_cons.1 hb with rfl | hb
      · simpa using hx
      · exact ih false b hb

theorem normFrom_length (r : Bool) (s : List Byte) : (normFrom r s).length ≤ s.length := by
  induction s generalizing r with
  | nil => simp [normFrom]
  | cons x s ih =>
    have h1 := ih true
    have h2 := ih false
    unfold normFrom
    split
    · split <;> simp <;> omega
    · simp
      omega

end Sys2Proof.Machine
end

