-- ==== Sys2Proof/Laws/PerInstr.lean ====
section
/-! SUPPORT. What holds of each command as syntax, one lemma per constructor: the shape of the bus write that sends it
(30_encoding.md R54, R55). -/

namespace Sys2Proof.Laws.EncodeShape

/-- A command is sent by a write of the OP it has to CMD, or, having none, by a write of its byte to CRC_DIN; the ignored
bits of the write are zero. -/
def Statement (i : Instr) : Prop :=
  (∀ op, opOf i = some op → encode i = cmdWrite op) ∧
  (opOf i = none → (encode i).offset = dinOffset) ∧
  (encode i).data.toNat < 256

theorem cmdWrite_lt (op : Byte) : (cmdWrite op).data.toNat < 256 := by
  simp only [cmdWrite, BitVec.toNat_setWidth]; omega

theorem of_op {i : Instr} {op : Byte} (ho : opOf i = some op) (he : encode i = cmdWrite op) : Statement i :=
  ⟨fun _ h => he.trans (congrArg cmdWrite (Option.some.inj (ho.symm.trans h))),
    fun h => absurd (ho.symm.trans h) (by simp), he ▸ cmdWrite_lt op⟩

theorem nop : Statement .nop := of_op rfl rfl
theorem crcInit : Statement .crcInit := of_op rfl rfl
theorem crcRx : Statement .crcRx := of_op rfl rfl
theorem decode : Statement .decode := of_op rfl rfl
theorem encode : Statement .encode := of_op rfl rfl
theorem buildAck : Statement .buildAck := of_op rfl rfl
theorem parse : Statement .parse := of_op rfl rfl
theorem normalize : Statement .normalize := of_op rfl rfl
theorem srst : Statement .srst := of_op rfl rfl
theorem illegal (op : Byte) : Statement (.illegal op) := of_op rfl rfl
theorem crcByte (b : Byte) : Statement (.crcByte b) :=
  ⟨fun _ h => absurd h (by simp [opOf]), fun _ => rfl, cmdWrite_lt b⟩

end Sys2Proof.Laws.EncodeShape
end

