-- ==== Sys2Proof/Machine/HostAsm.lean ====
section
/-! DEFINITION. The host's side, which is no part of the block and which no step uses: the transactions and
pseudo-instructions of 30_encoding.md R64, and the connection protocol of 60_exceptions.md R107 as what the host sends
in each of its phases. -/

namespace Sys2Proof.Machine

/-- The host's operations (30_encoding.md R64), by offset from BASE. A `poll` says how many of its STATUS reads come
before the engine's turn: the number is free (20_memory.md R50; assumption 20). -/
inductive HostOp where
  | sw (off : Nat) (v : Word)
  | lw (off : Nat)
  | sb (off : Nat) (b : Byte)
  | lb (off : Nat)
  | poll (early : Nat)
  | cmd (op : Byte) (early : Nat)
  | crcb (b : Byte)
  | setspan (off cnt : Half)
  | ldrx (bytes : List Byte)
  | ldtx (bytes : List Byte)
  deriving DecidableEq, Repr

/-- `sb` of a byte string from an offset on (30_encoding.md R64). -/
def storeBytes (base : Nat) : Nat → List Byte → List Input
  | _, [] => []
  | a, b :: bs => .write (base + a) 1 (b.setWidth 32) :: storeBytes base (a + 1) bs

/-- The STATUS reads of a poll and the engine's turn among them (30_encoding.md R64). -/
def pollInputs (base early : Nat) : List Input :=
  List.replicate early (.read (base + 0x004) 4) ++ [.engine, .read (base + 0x004) 4]

/-- The transactions of an operation (30_encoding.md R64). -/
def HostOp.expand (base : Nat) : HostOp → List Input
  | .sw a v => [.write (base + a) 4 v]
  | .lw a => [.read (base + a) 4]
  | .sb a b => [.write (base + a) 1 (b.setWidth 32)]
  | .lb a => [.read (base + a) 1]
  | .poll early => pollInputs base early
  | .cmd op early => .write (base + cmdOffset) 4 (op.setWidth 32) :: pollInputs base early
  | .crcb b => [.write (base + dinOffset) 4 (b.setWidth 32)]
  | .setspan o c => [.write (base + 0x01C) 4 (Span.word { off := o, len := c })]
  | .ldrx bs => storeBytes base 0x10000 bs ++ [.write (base + 0x010) 4 (BitVec.ofNat 32 bs.length)]
  | .ldtx bs => storeBytes base 0x20005 bs ++ [.write (base + 0x014) 4 (BitVec.ofNat 32 bs.length)]

/-- A host program as the total order it asks for. -/
def expandAll (base : Nat) (ops : List HostOp) : List Input := ops.flatMap (HostOp.expand base)

/-- The phases of one connection (60_exceptions.md R107). DECODING stands twice: before and after its PARSE. -/
inductive Phase where
  | awaitingData
  | decoding
  | parsing
  | acknowledging
  | closed
  deriving DecidableEq, Repr

/-- What the host sends in a phase and the phase it goes to, from the block's state at the phase's start, with the
connection's first chunk (60_exceptions.md R107): a chunk longer than RX_CAP, or one that does not decode, closes the
connection with no reply (R107, 70_reset_and_hazards.md R118); a payload that does not match is acknowledged all the
same. -/
def hostPhase (chunk : List Byte) (s : State) : Phase → Phase × List HostOp
  | .awaitingData =>
    if s.params.rxCap.toNat < chunk.length then (.closed, [])
    else (.decoding, [.ldrx chunk, .cmd 0x10#8 0])
  | .decoding =>
    if s.result = .ok then (.parsing, [.cmd 0x20#8 0]) else (.closed, [])
  | .parsing => (.acknowledging, [.sw 0x01C s.prs.fAcct.word, .cmd 0x21#8 0, .cmd 0x12#8 0])
  | .acknowledging => (.closed, (List.range s.txLen.toNat).map fun i => .lb (0x20000 + i))
  | .closed => (.closed, [])

end Sys2Proof.Machine
end

