-- ==== Sys2Proof/Tests/Slice0.lean ====
section
/-! SUPPORT. The model's own tests: decoding words written out from the opcode map, one or two steps of each command
with the values of 95_test_vectors.md, and for every obligation with hypotheses a state that meets them. -/

namespace Sys2Proof.Tests

open Sys2Proof Sys2Proof.Machine

/-! ### Helpers -/

/-- ASCII bytes. -/
def chars (cs : List Char) : List Byte := cs.map fun c => BitVec.ofNat 8 c.toNat

/-- The written bytes of a buffer that holds `bs` from index `i` on. -/
def cells : Nat → List Byte → Memory
  | _, [] => []
  | i, b :: bs => (i, b) :: cells (i + 1) bs

/-- After reset, with a chunk in RXBUF and its length in RX_LEN. -/
def rxState (bs : List Byte) : State :=
  { State.reset with rxbuf := cells 0 bs, rxLen := BitVec.ofNat 16 bs.length }

/-- After reset, with a payload at `TX[5..)` and its length in TX_PLEN. -/
def txState (bs : List Byte) : State :=
  { State.reset with txbuf := cells 5 bs, txPlen := BitVec.ofNat 16 bs.length }

def busyState (op : Byte) (ins : List Input) : State :=
  { State.reset with eng := .busy op, lastOp := op, inputs := ins }

def hostState (ins : List Input) : State := { State.reset with inputs := ins }

def nextOf : Outcome → Option State
  | .next s => some s
  | _ => none

def faultOf : Outcome → Option Fault
  | .fault f => some f
  | _ => none

/-- The state after a command that completes, else the state itself. -/
def after (i : Instr) (s : State) : State := (nextOf (exec i s)).getD s

/-- `123456789` (95_test_vectors.md S1). -/
def digits : List Byte := chars ['1', '2', '3', '4', '5', '6', '7', '8', '9']

/-- The shortest frame (95_test_vectors.md 2.3). -/
def emptyFrame : List Byte := [0x0A#8, 0x00#8, 0x00#8, 0x30#8, 0x30#8, 0x30#8, 0x30#8, 0x0D#8]

/-- The well-formed frame of `ABCDEFG` (95_test_vectors.md S3). -/
def letterFrame : List Byte :=
  [0x0A#8, 0x9E#8, 0x6C#8, 0x30#8, 0x30#8, 0x30#8, 0x37#8] ++ chars ['A', 'B', 'C', 'D', 'E', 'F', 'G'] ++ [0x0D#8]

/-- `"A"0001R1aL1F#acct_1[m][e]` (95_test_vectors.md 2.5). -/
def fullPayload : List Byte :=
  chars ['"', 'A', '"', '0', '0', '0', '1', 'R', '1', 'a', 'L', '1', 'F', '#', 'a', 'c', 'c', 't', '_', '1',
    '[', 'm', ']', '[', 'e', ']']

/-- A frame that carries `fullPayload`; its length field says 26, its checksum field is wrong. -/
def fullFrame : List Byte :=
  [0x0A#8, 0x12#8, 0x34#8, 0x30#8, 0x30#8, 0x31#8, 0x41#8] ++ fullPayload ++ [0x0D#8]

/-- A decoded chunk whose payload the grammar matches. -/
def decodedFull : State := after .decode (rxState fullFrame)

def parsedFull : State := after .parse decodedFull

/-- A decoded chunk whose payload, `ABCDEFG`, the grammar does not match. -/
def decodedLetters : State := after .decode (rxState letterFrame)

def parsedLetters : State := after .parse decodedLetters

/-- The smallest legal capacities (00_scope.md R5). -/
def smallParams : Params := { base := 0, rxCap := 8#16, txCap := 16#16 }

/-! ### Well-formedness and decoding -/

/-- The one check of `Instr.wellFormed`: an OP of the opcode map is no illegal OP. -/
theorem test_wellFormed_refuses : (Instr.illegal 0x10#8).wellFormed = false ∧
    (Instr.illegal 0xFF#8).wellFormed = false ∧ (Instr.illegal 0x00#8).wellFormed = false := by decide

/-- 30_encoding.md R56: one word of each row of the opcode map. -/
theorem test_decode_words :
    decodeCmd 0x00000000#32 = .nop ∧ decodeCmd 0x00000001#32 = .crcInit ∧ decodeCmd 0x00000002#32 = .crcRx ∧
    decodeCmd 0x00000010#32 = .decode ∧ decodeCmd 0x00000011#32 = .encode ∧
    decodeCmd 0x00000012#32 = .buildAck ∧ decodeCmd 0x00000020#32 = .parse ∧
    decodeCmd 0x00000021#32 = .normalize ∧ decodeCmd 0x000000FF#32 = .srst := by decide

/-- 30_encoding.md R56: the bounds of the illegal ranges 0x03 to 0x0F, 0x13 to 0x1F, 0x22 to 0xFE. -/
theorem test_decode_illegal :
    decodeCmd 0x03#32 = .illegal 0x03#8 ∧ decodeCmd 0x0F#32 = .illegal 0x0F#8 ∧
    decodeCmd 0x13#32 = .illegal 0x13#8 ∧ decodeCmd 0x1F#32 = .illegal 0x1F#8 ∧
    decodeCmd 0x22#32 = .illegal 0x22#8 ∧ decodeCmd 0xFE#32 = .illegal 0xFE#8 := by decide

/-- 30_encoding.md R54: bits [31:8] are ignored; 40_crc.md R72: a write of 0x00000131 feeds the byte 0x31. -/
theorem test_decode_ignores_high_bits :
    decodeCmd 0xFFFFFF10#32 = .decode ∧ decodeDin 0x00000131#32 = .crcByte 0x31#8 := by decide

/-- A write that is no command is rejected by name. -/
theorem test_decode_rejects :
    (match decodeWrite 0x008 4 0#32 with | .error e => some e | .ok _ => none) =
      some (.notACommandRegister 0x008) ∧
    (match decodeWrite 0x000 1 0#32 with | .error e => some e | .ok _ => none) = some (.notAWordWrite 1) := by
  decide

theorem test_table_words :
    decodeTableWord 8 0x12 = some .buildAck ∧ decodeTableWord 8 0x13 = some (.illegal 0x13#8) ∧
    decodeTableWord 32 0x31 = some (.crcByte 0x31#8) ∧ decodeTableWord 8 0x100000000 = none := by decide

/-- The first step after reset runs the placed command. -/
theorem test_withFetchWord :
    (nextOf (step (State.reset.withFetchWord 8 0x13))).map State.statusWord = some 0x00000902#32 ∧
    (nextOf (step (State.reset.withFetchWord 32 0x01))).map State.acc = some 0xC0C1#16 := by decide

/-! ### The commands, with the values of 95_test_vectors.md -/

theorem test_nop : (after .nop State.reset).statusWord = 0x00000002#32 := by decide

theorem test_illegal : (after (.illegal 0x13#8) State.reset).statusWord = 0x00000902#32 := by decide

theorem test_srst : after .srst { rxState [0x41#8] with acc := 0xBB3D#16 } = State.reset := by decide

theorem test_crcInit : (after .crcInit { State.reset with acc := 0xBB3D#16 }).acc = 0x0000#16 := by decide

theorem test_crcByte : (after (.crcByte 0x01#8) State.reset).acc = 0xC0C1#16 ∧
    (after (.crcByte 0x31#8) State.reset).acc = 0xD4C1#16 := by decide

theorem test_crc_vectors :
    crc16 [0xFF#8] = 0x4040#16 ∧ crc16 [0x01#8, 0x02#8] = 0x5180#16 ∧ crc16 digits = 0xBB3D#16 := by decide

theorem test_crcRx :
    (after .crcRx { rxState digits with span := { off := 4#16, len := 5#16 }, acc := 0x14BA#16 }).acc =
      0xBB3D#16 := by decide

theorem test_crcRx_range :
    after .crcRx { rxState digits with span := { off := 5#16, len := 5#16 }, acc := 0x1234#16 } =
      { rxState digits with
        span := { off := 5#16, len := 5#16 }, acc := 0x1234#16, done := true, result := .spanRange } := by
  decide

/-- 95_test_vectors.md 2.3: lower-case length digits. -/
theorem test_decode_lower_case :
    let t := after .decode (rxState ([0x0A#8, 0x0C#8, 0x9E#8, 0x30#8, 0x30#8, 0x30#8, 0x61#8] ++
      chars ['A', 'B', 'C', 'D', 'E', 'F', 'G', 'H', 'I', 'J'] ++ [0x0D#8]))
    t.readReg .decl = 0x000A0C9E#32 ∧ t.readReg .comp = 0x000A0C9E#32 ∧ t.statusWord = 0x00310002#32 := by
  decide

/-- 95_test_vectors.md 2.3: the outbound ACK frame fed back. -/
theorem test_decode_outbound :
    (after .decode (rxState [0x0A#8, 0x13#8, 0x21#8, 0x00#8, 0x03#8, 0x41#8, 0x43#8, 0x4B#8, 0x0D#8])).statusWord
      = 0x00000202#32 := by decide

/-- 95_test_vectors.md 2.4: `ACK`. -/
theorem test_encode :
    (after .encode (txState (chars ['A', 'C', 'K']))).txbuf =
      cells 0 [0x0A#8, 0x13#8, 0x21#8, 0x00#8, 0x03#8, 0x41#8, 0x43#8, 0x4B#8, 0x0D#8] ∧
    (after .encode (txState (chars ['A', 'C', 'K']))).txLen = 9#16 := by decide

theorem test_encode_overflow :
    (after .encode { State.reset with txPlen := 1019#16 }).result = .txOverflow := by decide

/-- 95_test_vectors.md 2.5: every group but the timestamp. -/
theorem test_parse :
    let t := parsedFull
    t.readReg .present = 0x7F#32 ∧ t.prs.matchSpan = { off := 7#16, len := 26#16 } ∧
    t.prs.fRcv = { off := 15#16, len := 2#16 } ∧ t.prs.fLine = { off := 18#16, len := 2#16 } ∧
    t.prs.fAcct = { off := 21#16, len := 6#16 } ∧ t.prs.fExt = { off := 31#16, len := 1#16 } := by decide

/-- 95_test_vectors.md 2.5: the timestamp runs to the end of the payload. -/
theorem test_parse_timestamp :
    let p := chars ['"', 'A', '"', '0', '0', '0', '1', 'L', '1', '#', 'B', '[', 'C', ']', '_', '9', '9', ':',
      '9', '9', ':', '9', '9', ',', '9', '9', '-', '9', '9', '-', '0', '0', '0', '0']
    (parsePayload p).tsDate.word = 0x63630000#32 ∧ (parsePayload p).tsTime.word = 0x00636363#32 ∧
    (parsePayload p).fTs = { off := 22#16, len := 19#16 } ∧ (parsePayload p).present = 0xBB#8 := by decide

/-- 95_test_vectors.md 2.6. -/
theorem test_buildAck :
    (after .buildAck parsedFull).txbuf = cells 0
      [0x0A#8, 0x99#8, 0x15#8, 0x00#8, 0x18#8, 0x22#8, 0x41#8, 0x43#8, 0x4B#8, 0x22#8, 0x30#8, 0x30#8, 0x30#8,
        0x31#8, 0x52#8, 0x31#8, 0x61#8, 0x4C#8, 0x31#8, 0x46#8, 0x23#8, 0x61#8, 0x63#8, 0x63#8, 0x74#8, 0x5F#8,
        0x31#8, 0x5B#8, 0x5D#8, 0x0D#8] := by decide +kernel

theorem test_buildAck_mismatch :
    (after .buildAck parsedLetters).txbuf = cells 0
      [0x0A#8, 0xB6#8, 0xDD#8, 0x00#8, 0x09#8, 0x22#8, 0x41#8, 0x43#8, 0x4B#8, 0x22#8, 0x4C#8, 0x23#8, 0x5B#8,
        0x5D#8, 0x0D#8] := by decide

/-- 95_test_vectors.md 2.7. -/
theorem test_normalize :
    let s := { rxState (chars ['1', '2', '.', '3', '4', ' ', '5', '6']) with span := { off := 0#16, len := 8#16 } }
    (after .normalize s).normbuf = cells 0 (chars ['1', '2', '_', '3', '4', '_', '5', '6']) := by decide

theorem test_norm_runs :
    normBytes (chars ['.', ' ', '.']) = chars ['_'] ∧
    normBytes [0x61#8, 0x09#8, 0x62#8, 0x0D#8, 0x0A#8, 0x63#8] = chars ['a', '_', 'b', '_', 'c'] ∧
    normBytes [0x61#8, 0xA0#8, 0x62#8] = [0x61#8, 0xA0#8, 0x62#8] := by decide

/-- 95_test_vectors.md 2.8. -/
theorem test_bus :
    faultOf (step (hostState [.read 0x060 4])) = some (.busError 0x060 4 .unmapped) ∧
    faultOf (step (hostState [.read 0x006 4])) = some (.busError 0x006 4 .align) ∧
    faultOf (step (hostState [.write 0x004 4 1#32])) = some (.busError 0x004 4 .readOnly) ∧
    faultOf (step (hostState [.read 0x10000 1])) = some (.uninitRead .rx 0) ∧
    (nextOf (step (hostState [.read 0x05C 4]))).map State.lastRead = some (some (.word 0x04000400#32)) := by
  decide

/-- 95_test_vectors.md 2.8: BUSY. -/
theorem test_busy :
    faultOf (step (busyState 0x10#8 [.read 0x008 4])) = some (.hazardBusy 0x008 .read) ∧
    faultOf (step (busyState 0x10#8 [.write 0x004 4 1#32])) = some (.busError 0x004 4 .readOnly) ∧
    (nextOf (step (busyState 0x10#8 [.read 0x004 4]))).map State.lastRead = some (some (.word 0x00000001#32)) := by
  decide

/-- 95_test_vectors.md 2.4: a byte written to TXBUF clears TX_LEN. -/
theorem test_write_tx :
    (nextOf (step { State.reset with txLen := 9#16, inputs := [.write 0x20005 1 0x41#32] })).map
      (fun t => (t.txLen, t.txbuf)) = some (0#16, [(5, 0x41#8)]) := by decide

/-- What `sw 0x000` and a poll expand to (30_encoding.md R64). -/
theorem test_cmd_expands :
    HostOp.expand 0 (.cmd 0x01#8 1) =
      [.write 0x000 4 0x00000001#32, .read 0x004 4, .engine, .read 0x004 4] := by decide

/-! ### Witnesses: for each obligation with hypotheses, a state and operands that meet them, clause by clause -/

theorem test_witness_DecodeEncodeRoundTrip :
    (Instr.illegal 0x03#8).wellFormed = true ∧ (Instr.illegal 0xFE#8).wellFormed = true ∧
    (Instr.crcByte 0xFF#8).wellFormed = true ∧ Instr.srst.wellFormed = true := by decide

theorem test_witness_StepRunsPendingCommand :
    ((busyState 0x10#8 []).eng = .busy 0x10#8 ∧ (busyState 0x10#8 []).inputs = []) ∧
    ((busyState 0xFF#8 [.engine]).eng = .busy 0xFF#8 ∧ (busyState 0xFF#8 [.engine]).inputs = .engine :: []) := by
  decide

/-- The hypotheses of `IssuedBy`, for a pending NOP and a CMD write of DECODE. -/
theorem test_witness_IssuedBy :
    let s := busyState 0x00#8 [.write 0x000 4 0xFFFFFF10#32]
    lowByte 0xFFFFFF10#32 = 0x10#8 ∧ s.eng = .busy 0x00#8 ∧
    s.inputs = .write (s.params.base + 0x000) 4 0xFFFFFF10#32 :: [] ∧
    faultOf (step s) = some (.hazardBusy 0x000 .write) := by decide

theorem test_witness_IllegalResult :
    0x03#8 ∉ [0x00#8, 0x01#8, 0x02#8, 0x10#8, 0x11#8, 0x12#8, 0x20#8, 0x21#8, 0xFF#8] ∧
    0xFE#8 ∉ [0x00#8, 0x01#8, 0x02#8, 0x10#8, 0x11#8, 0x12#8, 0x20#8, 0x21#8, 0xFF#8] := by decide

theorem test_witness_StepRunsCrcByteWrite :
    (hostState [.write 0x00C 4 0x131#32]).inputs = .write (State.reset.params.base + 0x00C) 4 0x131#32 :: [] := by
  decide

theorem test_witness_CmdWriteIssues :
    ((hostState [.write 0x000 4 0x12#32]).inputs = .write (State.reset.params.base + 0x000) 4 0x12#32 :: [] ∧
      (hostState [.write 0x000 4 0x12#32]).eng = .idle) ∧
    ((busyState 0x01#8 [.write 0x000 4 0x12#32]).inputs =
        .write (State.reset.params.base + 0x000) 4 0x12#32 :: [] ∧
      (busyState 0x01#8 [.write 0x000 4 0x12#32]).eng = .busy 0x01#8) := by decide

theorem test_witness_EngineWithoutCommandWaits :
    (State.reset.eng = .idle ∧ State.reset.inputs = []) ∧
    ((hostState [.engine]).eng = .idle ∧ (hostState [.engine]).inputs = .engine :: []) := by decide

/-- Both forms of the turn and both outcomes: a completion, and a fault on an unwritten byte. -/
theorem test_witness_PendingCommandCompletes :
    (step (busyState 0x00#8 []) = .next { State.reset with done := true }) ∧
    ((busyState 0xFF#8 [.engine]).eng = .busy 0xFF#8 ∧ (busyState 0xFF#8 [.engine]).inputs = .engine :: [] ∧
      step (busyState 0xFF#8 [.engine]) = .next State.reset) ∧
    (let s := { busyState 0x10#8 [] with rxLen := 3#16 }
     s.eng = .busy 0x10#8 ∧ s.inputs = [] ∧ faultOf (step s) = some (.uninitRead .rx 0)) :=
  ⟨rfl, ⟨rfl, rfl, rfl⟩, by decide⟩

theorem test_witness_EngineStepPositionFree :
    (busyState 0x01#8 []).eng = .busy 0x01#8 ∧
    exec (decodeOp 0x01#8) { busyState 0x01#8 [] with inputs := [] } =
      .next { busyState 0x01#8 [] with result := .ok, done := true, eng := .idle } := ⟨rfl, rfl⟩

theorem test_witness_HardResetAborts :
    (busyState 0x10#8 [.hardReset]).inputs = .hardReset :: [] := by decide

theorem test_witness_CrcByteResult :
    (State.reset.eng = .idle ∧ (busyState 0x10#8 []).eng = .busy 0x10#8) ∧
    ((hostState [.write 0x00C 4 1#32]).inputs = .write (State.reset.params.base + 0x00C) 4 1#32 :: [] ∧
      (hostState [.write 0x00C 4 1#32]).eng = .idle) ∧
    ((busyState 0x10#8 [.write 0x00C 4 1#32]).inputs = .write (State.reset.params.base + 0x00C) 4 1#32 :: [] ∧
      (busyState 0x10#8 [.write 0x00C 4 1#32]).eng = .busy 0x10#8) := by decide

/-- RX_LEN one above RX_CAP; a span one above RX_LEN; a written span that ends at RX_LEN; an unwritten one at RX_LEN =
RX_CAP. -/
theorem test_witness_CrcRxResult_NormalizeResult :
    (let s := { State.reset with rxLen := 1025#16 }; s.params.rxCap.toNat < s.rxLen.toNat) ∧
    (let s := { rxState digits with span := { off := 5#16, len := 5#16 } }
     s.rxLen.toNat ≤ s.params.rxCap.toNat ∧ s.rxLen.toNat < s.span.off.toNat + s.span.len.toNat) ∧
    (let s := { rxState digits with span := { off := 7#16, len := 2#16 } }
     s.rxLen.toNat ≤ s.params.rxCap.toNat ∧ s.span.off.toNat + s.span.len.toNat ≤ s.rxLen.toNat ∧
     s.rxs s.span.off.toNat s.span.len.toNat = .ok (chars ['8', '9'])) ∧
    (let s := { State.reset with rxLen := 1024#16, span := { off := 1023#16, len := 1#16 } }
     s.rxLen.toNat ≤ s.params.rxCap.toNat ∧ s.span.off.toNat + s.span.len.toNat ≤ s.rxLen.toNat ∧
     s.rxs s.span.off.toNat s.span.len.toNat = .error (.uninitRead .rx 1023)) :=
  ⟨by decide, by decide, ⟨by decide, by decide, rfl⟩, ⟨by decide, by decide, rfl⟩⟩

theorem test_witness_CrcRxStreams :
    (2#16).toNat + (3#16).toNat + (4#16).toNat < 65536 ∧
    ∃ t, exec .crcRx { rxState digits with span := { off := 2#16, len := 3#16 + 4#16 } } = .next t ∧
      t.result = .ok := ⟨by decide, _, rfl, rfl⟩

/-- The shortest frame, and one with a payload. -/
theorem test_witness_DecodeAccepts :
    (rxState emptyFrame).rxs 0 (rxState emptyFrame).rxLen.toNat =
      .ok ([0x0A#8, 0x00#8, 0x00#8, 0x30#8, 0x30#8, 0x30#8, 0x30#8] ++ [] ++ [0x0D#8]) ∧
    (rxState letterFrame).rxLen.toNat ≤ (rxState letterFrame).params.rxCap.toNat ∧
    (rxState letterFrame).rxs 0 (rxState letterFrame).rxLen.toNat =
      .ok ([0x0A#8, 0x9E#8, 0x6C#8, 0x30#8, 0x30#8, 0x30#8, 0x37#8] ++
        chars ['A', 'B', 'C', 'D', 'E', 'F', 'G'] ++ [0x0D#8]) ∧
    isHex 0x30#8 = true ∧ isHex 0x37#8 = true := ⟨rfl, by decide, rfl, by decide, by decide⟩

/-- Each clause: RX_OVERFLOW; an unwritten byte; too short; no start marker; no end marker; a digit that is not hex. -/
theorem test_witness_DecodeRejects :
    (let s := { State.reset with rxLen := 1025#16 }; s.params.rxCap.toNat < s.rxLen.toNat) ∧
    ({ State.reset with rxLen := 3#16 } : State).rxs 0 3 = .error (.uninitRead .rx 0) ∧
    ((rxState (emptyFrame.take 7)).rxs 0 7 = .ok (emptyFrame.take 7) ∧ (emptyFrame.take 7).length < 8) ∧
    ((rxState (emptyFrame.set 0 0x0B#8)).rxs 0 8 = .ok (emptyFrame.set 0 0x0B#8) ∧
      (emptyFrame.set 0 0x0B#8)[0]? ≠ some 0x0A#8) ∧
    ((rxState (emptyFrame.set 7 0x0A#8)).rxs 0 8 = .ok (emptyFrame.set 7 0x0A#8) ∧
      (emptyFrame.set 7 0x0A#8)[8 - 1]? ≠ some 0x0D#8) ∧
    (let f := emptyFrame.set 6 0x47#8
     (rxState f).rxs 0 8 = .ok f ∧ 8 ≤ f.length ∧ f[0]? = some 0x0A#8 ∧ f[f.length - 1]? = some 0x0D#8 ∧
     f[6]? = some 0x47#8 ∧ isHex 0x47#8 = false) :=
  ⟨by decide, rfl, ⟨rfl, by decide⟩, ⟨rfl, by decide⟩, ⟨rfl, by decide⟩,
    ⟨rfl, by decide, by decide, by decide, by decide, by decide⟩⟩

/-- With TX_CAP = 16: L = 11 overflows; L = 10 fits, written or not. -/
theorem test_witness_EncodeResult :
    (let s := { State.resetWith smallParams with txPlen := 11#16 }
     s.params.txCap.toNat < s.txPlen.toNat + 6) ∧
    (let s := { State.resetWith smallParams with txPlen := 10#16 }
     s.txPlen.toNat + 6 ≤ s.params.txCap.toNat ∧ s.txs 5 s.txPlen.toNat = .error (.uninitRead .tx 5)) ∧
    (let s := { State.resetWith smallParams with txPlen := 10#16, txbuf := cells 5 (digits ++ [0x0D#8]) }
     s.txPlen.toNat + 6 ≤ s.params.txCap.toNat ∧ s.txs 5 s.txPlen.toNat = .ok (digits ++ [0x0D#8])) :=
  ⟨by decide, ⟨by decide, rfl⟩, ⟨by decide, rfl⟩⟩

theorem test_witness_FrameRoundTrip :
    (∃ t, exec .encode (txState digits) = .next t ∧ t.result = .ok) ∧
    (let p := chars ['A', 'B', 'C', 'D', 'E', 'F', 'G']
     (rxState letterFrame).rxs 0 (rxState letterFrame).rxLen.toNat =
       .ok ([0x0A#8, (crc16 p).extractLsb' 8 8, (crc16 p).extractLsb' 0 8, 0x30#8, 0x30#8, 0x30#8, 0x37#8] ++ p ++
         [0x0D#8]) ∧
     hexval 0x30#8 * 4096 + hexval 0x30#8 * 256 + hexval 0x30#8 * 16 + hexval 0x37#8 = p.length) :=
  ⟨⟨_, rfl, rfl⟩, rfl, by decide⟩

/-- Each clause: NO_FRAME; NOT_PARSED; the acknowledgment of a match, which fits; one that does not fit. -/
theorem test_witness_BuildAckResult :
    State.reset.dec.frameOk = false ∧
    (decodedFull.dec.frameOk = true ∧ decodedFull.prs.parsed = false) ∧
    (let s := parsedFull
     s.dec.frameOk = true ∧ s.prs.parsed = true ∧
     s.rxs s.prs.fSeq.off.toNat s.prs.fSeq.len.toNat = .ok (chars ['0', '0', '0', '1']) ∧
     s.rxs s.prs.fRcv.off.toNat s.prs.fRcv.len.toNat = .ok (chars ['1', 'a']) ∧
     s.rxs s.prs.fLine.off.toNat s.prs.fLine.len.toNat = .ok (chars ['1', 'F']) ∧
     s.rxs s.prs.fAcct.off.toNat s.prs.fAcct.len.toNat = .ok (chars ['a', 'c', 'c', 't', '_', '1']) ∧
     24 + 6 ≤ s.params.txCap.toNat) ∧
    (let s := { parsedFull with params := { base := 0, rxCap := 1024#16, txCap := 29#16 } }
     s.dec.frameOk = true ∧ s.prs.parsed = true ∧ s.params.txCap.toNat < 24 + 6) :=
  ⟨by decide, by decide, ⟨by decide, by decide, rfl, rfl, rfl, rfl, by decide⟩, by decide⟩

theorem test_witness_AcknowledgmentIsUniform :
    (∃ t, exec .buildAck parsedFull = .next t) ∧
    (let s := { parsedFull with rxbuf := [] }
     faultOf (exec .buildAck s) = some (.uninitRead .rx 10)) := ⟨⟨_, rfl⟩, by decide⟩

theorem test_witness_CodecIgnoresAccumulator :
    (∃ t, exec .decode (rxState emptyFrame) = .next t) ∧
    faultOf (exec .decode { State.reset with rxLen := 1#16 }) = some (.uninitRead .rx 0) := ⟨⟨_, rfl⟩, by decide⟩

theorem test_witness_ParseResult :
    State.reset.dec.frameOk = false ∧
    (decodedLetters.dec.frameOk = true ∧
      decodedLetters.rxs 7 decodedLetters.dec.comp.len.toNat = .ok (chars ['A', 'B', 'C', 'D', 'E', 'F', 'G']) ∧
      grammarMatch (chars ['A', 'B', 'C', 'D', 'E', 'F', 'G']) = none) ∧
    (decodedFull.dec.frameOk = true ∧
      decodedFull.rxs 7 decodedFull.dec.comp.len.toNat = .ok fullPayload ∧
      (grammarMatch fullPayload).isSome = true) :=
  ⟨by decide, ⟨by decide, rfl, by decide⟩, ⟨by decide, rfl, by decide⟩⟩

/-- A match that does not start at 0, and the failing attempt before it. -/
theorem test_witness_MatchIsLeftmost_MatcherSound :
    let p := chars ['x', '"', 'A', '"', '0', '0', '0', '1', 'L', '1', '#', 'B', '[', 'C', ']']
    tryMatch p 0 = none ∧ (tryMatch p 1).isSome = true ∧ (grammarMatch p).map Match.start = some 1 := by decide

/-- The required part, with an extension group after it and nothing more. -/
theorem test_witness_MatcherComplete :
    InClass isNotQuote 1 1 (chars ['A']) ∧ InClass isDigit 4 4 (chars ['0', '0', '0', '1']) ∧
    (∀ r, some (chars ['1', 'a']) = some r → InClass isHex 1 6 r) ∧ InClass isHex 1 6 (chars ['1', 'F']) ∧
    InClass isWordChar 1 6 (chars ['a', 'c', 'c', 't', '_', '1']) ∧ InClass isNotRBracket 1 1 (chars ['m']) ∧
    (∀ e, some (chars ['e']) = some e → InClass isNotRBracket 1 e.length e) ∧
    (∀ t : List Byte, t ≠ [] → ([] : List Byte) ≠ [0x5F#8] ++ t) ∧
    fullPayload = [] ++ [0x22#8] ++ chars ['A'] ++ [0x22#8] ++ chars ['0', '0', '0', '1']
      ++ rcvPart (some (chars ['1', 'a'])) ++ [0x4C#8] ++ chars ['1', 'F'] ++ [0x23#8]
      ++ chars ['a', 'c', 'c', 't', '_', '1'] ++ [0x5B#8] ++ chars ['m'] ++ [0x5D#8]
      ++ extPart (some (chars ['e'])) ++ tsPart none ++ [] := by
  refine ⟨?_, ?_, fun r h => ?_, ?_, ?_, ?_, fun e h => ?_, fun t _ h => by simp at h, by decide⟩
  · unfold InClass; decide
  · unfold InClass; decide
  · cases h; unfold InClass; decide
  · unfold InClass; decide
  · unfold InClass; decide
  · unfold InClass; decide
  · cases h; unfold InClass; decide

/-- What may follow the required part, each form of 42_parser.md R87: `[E]` and a timestamp to the end; a timestamp with
no extension before it; `]junk`; `[]_x`; a final `_`. -/
theorem test_witness_MatcherComplete_tails :
    (∀ t, some (chars ['x']) = some t → t ≠ [] ∧ ([] : List Byte) = []) ∧
    (∀ e r : List Byte, tsPart (some (chars ['x'])) ++ [] ≠ [0x5B#8] ++ e ++ [0x5D#8] ++ r) ∧
    (∀ e r : List Byte, tsPart none ++ chars [']', 'j'] ≠ [0x5B#8] ++ e ++ [0x5D#8] ++ r) ∧
    (∀ t : List Byte, chars [']', 'j'] ≠ [0x5F#8] ++ t) ∧
    (∀ e r, InClass isNotRBracket 1 e.length e →
      tsPart none ++ chars ['[', ']', '_', 'x'] ≠ [0x5B#8] ++ e ++ [0x5D#8] ++ r) ∧
    (∀ t : List Byte, chars ['[', ']', '_', 'x'] ≠ [0x5F#8] ++ t) ∧
    (∀ t : List Byte, t ≠ [] → chars ['_'] ≠ [0x5F#8] ++ t) := by
  refine ⟨fun t h => ?_, fun e r h => ?_, fun e r h => ?_, fun t h => ?_, fun e r he h => ?_, fun t h => ?_,
    fun t ht h => ?_⟩
  · cases h; decide
  · simp [tsPart] at h
  · simp [tsPart, chars] at h
  · simp [chars] at h
  · cases e with
    | nil => simp [InClass] at he
    | cons b e =>
      have hb : b = 0x5D#8 := by
        simp [tsPart, chars] at h
        exact h.1.symm
      have := he.2.2 b (by simp)
      rw [hb] at this
      cases this
  · simp [chars] at h
  · simp [chars] at h
    exact ht h

/-- 95_test_vectors.md 2.5, the tails: `[C]]junk`, `[C][]_x`, `[C][E]_` and `[C]_x`. -/
theorem test_match_tails :
    let q := chars ['"', 'A', '"', '0', '0', '0', '1', 'L', '1', '#', 'B', '[', 'C', ']']
    let f := fun tail => (grammarMatch (q ++ chars tail)).map fun m => (m.ext, m.ts, m.stop)
    f [']', 'j'] = some (none, none, 14) ∧ f ['[', ']', '_', 'x'] = some (none, none, 14) ∧
    f ['[', 'E', ']', '_'] = some (some ⟨15, 1⟩, none, 17) ∧ f ['_', 'x'] = some (none, some ⟨15, 1⟩, 16) := by
  decide

theorem test_witness_MismatchIsAcknowledged :
    15 ≤ decodedLetters.params.txCap.toNat ∧ decodedLetters.dec.frameOk = true ∧
    decodedLetters.rxs 7 decodedLetters.dec.comp.len.toNat = .ok (chars ['A', 'B', 'C', 'D', 'E', 'F', 'G']) ∧
    grammarMatch (chars ['A', 'B', 'C', 'D', 'E', 'F', 'G']) = none := ⟨by decide, by decide, rfl, by decide⟩

/-- A run between two other bytes, and a string with no separator. -/
theorem test_witness_NormForm :
    (chars ['.', ' '] ≠ [] ∧ (∀ b ∈ chars ['.', ' '], isSep b = true) ∧
      (∀ b, (chars ['a']).getLast? = some b → isSep b = false) ∧
      (∀ b, (chars ['b']).head? = some b → isSep b = false)) ∧
    (∀ b ∈ chars ['a', '_', 'b'], isSep b = false) := by
  refine ⟨⟨by decide, by decide, fun b h => ?_, fun b h => ?_⟩, by decide⟩ <;> (cases h; decide)

theorem test_witness_ParsedAccountIsNormal : (grammarMatch fullPayload).isSome = true := by decide

/-- The first and the last of the 24 offsets. -/
theorem test_witness_RegisterReads :
    State.reset.eng = .idle ∧
    (hostState [.read 0x000 4]).inputs = .read (State.reset.params.base + 0x000) 4 :: [] ∧
    (hostState [.read 0x05C 4]).inputs = .read (State.reset.params.base + 0x05C) 4 :: [] := by decide

theorem test_witness_RegisterWrites :
    State.reset.eng = .idle ∧
    (hostState [.write 0x008 4 1#32]).inputs = .write (State.reset.params.base + 0x008) 4 1#32 :: [] ∧
    (hostState [.write 0x010 4 1#32]).inputs = .write (State.reset.params.base + 0x010) 4 1#32 :: [] ∧
    (hostState [.write 0x014 4 1#32]).inputs = .write (State.reset.params.base + 0x014) 4 1#32 :: [] ∧
    (hostState [.write 0x01C 4 1#32]).inputs = .write (State.reset.params.base + 0x01C) 4 1#32 :: [] := by decide

/-- The last byte of each buffer. -/
theorem test_witness_BufferWrites :
    State.reset.eng = .idle ∧
    (1023 < State.reset.params.rxCap.toNat ∧
      (hostState [.write 0x103FF 1 1#32]).inputs =
        .write (State.reset.params.base + (0x10000 + 1023)) 1 1#32 :: []) ∧
    (1023 < State.reset.params.txCap.toNat ∧
      (hostState [.write 0x203FF 1 1#32]).inputs =
        .write (State.reset.params.base + (0x20000 + 1023)) 1 1#32 :: []) := by decide

theorem test_witness_BufferReads :
    (regionOf State.reset.params 0x303FF = .window .nb 1023 ∧ State.reset.byteAtOffset 0x303FF = none) ∧
    (regionOf (rxState digits).params 0x10008 = .window .rx 8 ∧
      (rxState digits).byteAtOffset 0x10008 = some 0x39#8) := by decide

/-- Each clause at a bound: UNMAPPED at 0x060 and past a window, WIDTH at 0x05F and at a window's last byte, ALIGN at
0x05F, READ_ONLY at 0x05C and at NORMBUF's last byte. -/
theorem test_witness_BusErrors :
    faultOf (step (hostState [.read 0x060 4])) = some (.busError 0x060 4 .unmapped) ∧
    faultOf (step (hostState [.write 0x10400 1 0#32])) = some (.busError 0x10400 1 .unmapped) ∧
    faultOf (step (hostState [.read 0x05F 1])) = some (.busError 0x05F 1 .width) ∧
    faultOf (step (hostState [.write 0x303FF 4 0#32])) = some (.busError 0x303FF 4 .width) ∧
    faultOf (step (hostState [.write 0x05F 4 0#32])) = some (.busError 0x05F 4 .align) ∧
    faultOf (step (hostState [.write 0x05C 4 0#32])) = some (.busError 0x05C 4 .readOnly) ∧
    faultOf (step (hostState [.write 0x303FF 1 0#32])) = some (.busError 0x303FF 1 .readOnly) := by decide

/-- Each clause: a STATUS read; another read; a write, of a register and of a buffer byte; a bus error each way. -/
theorem test_witness_BusyHazard :
    (nextOf (step (busyState 0x10#8 [.read 0x004 4]))).isSome = true ∧
    (busTarget State.reset.params 0x05C 4 .read = .ok (.reg .caps) ∧
      faultOf (step (busyState 0x10#8 [.read 0x05C 4])) = some (.hazardBusy 0x05C .read)) ∧
    (busTarget State.reset.params 0x203FF 1 .write = .ok (.buf .tx 1023) ∧
      faultOf (step (busyState 0x10#8 [.write 0x203FF 1 0#32])) = some (.hazardBusy 0x203FF .write)) ∧
    busTarget State.reset.params 0x060 4 .read = .error (.busError 0x060 4 .unmapped) ∧
    busTarget State.reset.params 0x004 4 .write = .error (.busError 0x004 4 .readOnly) :=
  ⟨by decide, ⟨rfl, by decide⟩, ⟨rfl, by decide⟩, rfl, rfl⟩

theorem test_witness_ReadsHaveNoSideEffect :
    (hostState [.read 0x05C 4]).inputs = .read 0x05C 4 :: [] ∧
    ∃ t, step (hostState [.read 0x05C 4]) = .next t := ⟨rfl, _, rfl⟩

/-- Each command of the frames has a next state. -/
theorem test_witness_Frames :
    (∃ t, exec .nop State.reset = .next t) ∧ (∃ t, exec (.illegal 0x03#8) State.reset = .next t) ∧
    (∃ t, exec .crcInit State.reset = .next t) ∧ (∃ t, exec .crcRx State.reset = .next t) ∧
    (∃ t, exec (.crcByte 0x31#8) State.reset = .next t) ∧ (∃ t, exec .decode (rxState emptyFrame) = .next t) ∧
    (∃ t, exec .parse decodedFull = .next t) ∧
    (∃ t, exec .encode (txState digits) = .next t ∧ t.result = .ok) ∧
    (∃ t, exec .encode { State.reset with txPlen := 1019#16 } = .next t ∧ t.result ≠ .ok) ∧
    (∃ t, exec .buildAck parsedFull = .next t ∧ t.result = .ok) ∧
    (∃ t, exec .buildAck State.reset = .next t ∧ t.result ≠ .ok) ∧
    (∃ t, exec .normalize State.reset = .next t ∧ t.result = .ok) ∧
    (∃ t, exec .normalize { State.reset with span := { off := 1#16, len := 0#16 } } = .next t ∧ t.result ≠ .ok) :=
  ⟨⟨_, rfl⟩, ⟨_, rfl⟩, ⟨_, rfl⟩, ⟨_, rfl⟩, ⟨_, rfl⟩, ⟨_, rfl⟩, ⟨_, rfl⟩, ⟨_, rfl, rfl⟩, ⟨_, rfl, by decide⟩,
    ⟨_, rfl, rfl⟩, ⟨_, rfl, by decide⟩, ⟨_, rfl, rfl⟩, ⟨_, rfl, by decide⟩⟩

/-- A state with decode and parse results that describe a matching payload. -/
theorem test_fresh_full : parsedFull.Fresh :=
  ⟨⟨by decide, fun _ => ⟨by decide, fullFrame, rfl, rfl⟩⟩, ⟨by decide, fun _ => ⟨by decide, fullPayload, rfl, rfl⟩⟩⟩

/-- A state with decode and parse results that describe a payload that does not match. -/
theorem test_fresh_letters : parsedLetters.Fresh :=
  ⟨⟨by decide, fun _ => ⟨by decide, letterFrame, rfl, rfl⟩⟩,
    ⟨by decide, fun _ => ⟨by decide, chars ['A', 'B', 'C', 'D', 'E', 'F', 'G'], rfl, rfl⟩⟩⟩

/-- A state whose TX_LEN measures a finished frame. -/
theorem test_txFresh : (after .encode (txState digits)).TxFresh :=
  .inr ⟨by decide, by decide, digits, rfl, rfl⟩

/-- A state whose NORM_LEN measures a normalised identifier. -/
theorem test_normFresh :
    ({ State.reset with normLen := 4#16, normbuf := cells 0 (chars ['A', 'B', 'C', 'D']) } : State).NormFresh :=
  ⟨by decide, chars ['A', 'B', 'C', 'D'], rfl, by decide⟩

theorem test_witness_StepKeepsBuffersWf : (rxState digits).BuffersWf ∧ ∃ t, step (rxState digits) = .next t :=
  ⟨⟨by decide, by decide, by decide, by decide, by decide, by decide⟩, _, rfl⟩

theorem test_witness_StepKeepsPendingOk :
    (busyState 0x12#8 []).PendingOk ∧ ∃ t, step (busyState 0x12#8 []) = .next t :=
  ⟨fun _ h => by cases h; decide, _, rfl⟩

theorem test_witness_StepKeepsFresh : parsedFull.Fresh ∧ ∃ t, step parsedFull = .next t :=
  ⟨test_fresh_full, _, rfl⟩

theorem test_witness_StepKeepsTxFresh :
    (after .encode (txState digits)).TxFresh ∧ ∃ t, step (after .encode (txState digits)) = .next t :=
  ⟨test_txFresh, _, rfl⟩

theorem test_witness_StepKeepsNormFresh :
    let s : State := { State.reset with normLen := 4#16, normbuf := cells 0 (chars ['A', 'B', 'C', 'D']) }
    s.NormFresh ∧ ∃ t, step s = .next t := ⟨test_normFresh, _, rfl⟩

theorem test_witness_PresentFollowsFields :
    (parsedFull.Fresh ∧ parsedFull.prs.matched = true) ∧
    (parsedLetters.Fresh ∧ parsedLetters.prs.matched = false) :=
  ⟨⟨test_fresh_full, by decide⟩, test_fresh_letters, by decide⟩

theorem test_witness_ParseAndAckNeverFault : parsedFull.Fresh := test_fresh_full

theorem test_witness_StepKeepsParams : ∃ t, step (hostState [.hardReset]) = .next t := ⟨_, rfl⟩

/-- The second of two bytes is the first that is unwritten. -/
theorem test_witness_ReadBytesFaultsOnFirstUnwritten :
    Memory.readBytes .nb (cells 0 [0x41#8]) 0 2 = .error (.uninitRead .nb 1) := rfl

/-- Both clauses, matched and not, with TX_CAP at least RX_CAP. -/
theorem test_witness_AckNeverOverflows :
    (parsedFull.params.Legal ∧ parsedFull.params.rxCap.toNat ≤ parsedFull.params.txCap.toNat ∧ parsedFull.Fresh ∧
      parsedFull.dec.frameOk = true ∧ parsedFull.prs.parsed = true ∧ parsedFull.prs.matched = true) ∧
    (parsedLetters.params.Legal ∧ parsedLetters.params.rxCap.toNat ≤ parsedLetters.params.txCap.toNat ∧
      parsedLetters.Fresh ∧ parsedLetters.dec.frameOk = true ∧ parsedLetters.prs.parsed = true ∧
      parsedLetters.prs.matched = false) :=
  ⟨⟨by decide, by decide, test_fresh_full, by decide, by decide, by decide⟩,
    ⟨by decide, by decide, test_fresh_letters, by decide, by decide, by decide⟩⟩

/-- The bounds of the three ranges of `hexval`. -/
theorem test_witness_CharacterClasses :
    hexval 0x30#8 = 0 ∧ hexval 0x39#8 = 9 ∧ hexval 0x41#8 = 10 ∧ hexval 0x46#8 = 15 ∧ hexval 0x61#8 = 10 ∧
    hexval 0x66#8 = 15 := by decide

end Sys2Proof.Tests
end

section
/-! SUPPORT. What a host write can do, said once beside `Effect`, and the induction step every invariant of the machine
goes by: a property that the commands and the host writes keep is one that every step keeps. -/

namespace Sys2Proof.Machine

/-- The next states a host write to a register or a buffer can lead to, made while no command is pending. -/
inductive HostWrite (s : State) : State → Prop where
  /-- A register or a buffer that no write reaches, or whose write is a command (20_memory.md R45, R46). -/
  | none : HostWrite s s
  /-- CMD (43_control.md R93). -/
  | issue (op : Byte) : HostWrite s (s.issue op)
  /-- CRC (10_state.md R18). -/
  | acc (a : Half) : HostWrite s { s with acc := a }
  /-- RX_LEN (10_state.md R20). -/
  | rxLen (n : Half) : HostWrite s (State.clearDecode { s with rxLen := n })
  /-- TX_PLEN (10_state.md R21). -/
  | txPlen (n : Half) : HostWrite s (State.clearTxLen { s with txPlen := n })
  /-- SPAN (10_state.md R23). -/
  | span (f : Span) : HostWrite s { s with span := f }
  /-- A byte inside RXBUF (10_state.md R35). -/
  | rxByte (i : Nat) (b : Byte) (inside : i < s.params.rxCap.toNat) :
      HostWrite s (State.clearDecode { s with rxbuf := s.rxbuf.write i b })
  /-- A byte inside TXBUF (10_state.md R22). -/
  | txByte (i : Nat) (b : Byte) (inside : i < s.params.txCap.toNat) :
      HostWrite s (State.clearTxLen { s with txbuf := s.txbuf.write i b })

theorem writeReg_hostWrite (s : State) (d : Word) (r : Reg) : HostWrite s (s.writeReg d r) := by
  cases r with
  | cmd => exact .issue _
  | crc => exact .acc _
  | rxLen => exact .rxLen _
  | txPlen => exact .txPlen _
  | span => exact .span _
  | _ => exact .none

theorem writeBuf_hostWrite (s : State) (i : Nat) (b : Byte) (buf : Buffer) (h : i < bufferCap s.params buf) :
    HostWrite s (s.writeBuf i b buf) := by
  cases buf with
  | rx => exact .rxByte i b h
  | tx => exact .txByte i b h
  | nb => exact .none

/-- What makes a property of states one that every step keeps: the host's side of the bus, a command and a host write
each keep it. A property of the block alone does not look at the host's side, so those two fields fill themselves in. -/
structure KeptBySteps (P : State → Prop) : Prop where
  popInput : ∀ s, P s → P s.popInput := by exact fun _ hs => hs
  receive  : ∀ s d, P s → P (s.receive d) := by exact fun _ _ hs => hs
  command  : ∀ {s t}, P s → Effect s t → P t
  write    : ∀ {s t}, P s → HostWrite s t → P t

theorem KeptBySteps.step {P : State → Prop} (hP : KeptBySteps P) {s t : State} (hs : P s)
    (h : step s = .next t) : P t := by
  have hp := hP.popInput s hs
  cases step_next h with
  | wait => exact hp
  | command e => exact hP.command hp e
  | hardReset => exact hP.command hp .reset
  | read d => exact hP.receive _ d hp
  | writeReg d r _ => exact hP.write hp (writeReg_hostWrite _ d r)
  | writeBuf a i b buf _ place =>
    have hi := ((regionOf_window_iff _ a i buf).1 place).2
    exact hP.write hp (writeBuf_hostWrite _ i b buf hi)

end Sys2Proof.Machine
end

section
/-! PROOFS. The statements about the state (10_state.md): the invariants of every step, reading a buffer, the registers,
the accumulator and PRESENT. -/

namespace Sys2Proof.Machine

/-! ### The buffers (10_state.md R34, R38) -/

/-- A length inside the capacity of a buffer is not truncated in a 16-bit register. -/
theorem toNat_ofNat_of_le_cap {n : Nat} {cap : Half} (h : n ≤ cap.toNat) : (BitVec.ofNat 16 n).toNat = n :=
  BitVec.toNat_ofNat n 16 ▸ Nat.mod_eq_of_lt (h.trans_lt cap.isLt)

/-- A buffer in canonical form inside its capacity. -/
def Memory.Fits (m : Memory) (cap : Nat) : Prop := m.wf ∧ m.within cap

theorem Memory.fits_nil (cap : Nat) : Memory.Fits [] cap := ⟨List.Pairwise.nil, by simp⟩

theorem Memory.Fits.write {m : Memory} {cap i : Nat} (h : m.Fits cap) (b : Byte) (hi : i < cap) :
    (m.write i b).Fits cap :=
  ⟨m.write_wf i b h.1, m.write_within i cap b h.2 hi⟩

theorem Memory.Fits.writeBytes {m : Memory} {cap i : Nat} {bs : List Byte} (h : m.Fits cap)
    (hi : i + bs.length ≤ cap) : (m.writeBytes i bs).Fits cap :=
  ⟨Memory.writeBytes_wf bs m i h.1, Memory.writeBytes_within bs m i cap h.2 hi⟩

theorem Memory.Fits.writeEnvelope {m : Memory} {cap : Nat} {p : List Byte} (h : m.Fits cap)
    (hp : p.length + 6 ≤ cap) : (writeEnvelope m p).Fits cap :=
  (h.writeBytes (by rw [frameHeader_length]; omega)).write _ (by omega)

/-- `State.BuffersWf`, buffer by buffer. -/
def State.BuffersFit (s : State) : Prop :=
  s.rxbuf.Fits s.params.rxCap.toNat ∧ s.txbuf.Fits s.params.txCap.toNat ∧ s.normbuf.Fits s.params.rxCap.toNat

theorem State.buffersWf_iff_buffersFit (s : State) : s.BuffersWf ↔ s.BuffersFit :=
  ⟨fun h => ⟨⟨h.rxWf, h.rxWithin⟩, ⟨h.txWf, h.txWithin⟩, ⟨h.nbWf, h.nbWithin⟩⟩,
    fun ⟨⟨h1, h2⟩, ⟨h3, h4⟩, ⟨h5, h6⟩⟩ => ⟨h1, h3, h5, h2, h4, h6⟩⟩

theorem normBytes_length (bs : List Byte) : (normBytes bs).length ≤ bs.length := normFrom_length false bs

/-- The normalised form of a span inside the chunk is no longer than NORMBUF (42_parser.md R91). -/
theorem normBytes_length_le_rxCap {s : State} {bs : List Byte} (fits : s.rxLen.toNat ≤ s.params.rxCap.toNat)
    (inside : s.span.off.toNat + s.span.len.toNat ≤ s.rxLen.toNat) (read : s.rxSpan s.span = .ok bs) :
    (normBytes bs).length ≤ s.params.rxCap.toNat := by
  have h1 := normBytes_length bs
  have h2 : bs.length = s.span.len.toNat := Memory.readBytes_length read
  omega

theorem State.BuffersFit.command {s t : State} (hs : s.BuffersFit) (e : Effect s t) : t.BuffersFit := by
  obtain ⟨hrx, htx, hnb⟩ := hs
  cases e with
  | encoded p fits read =>
    have hl : p.length = s.txPlen.toNat := Memory.readBytes_length read
    exact ⟨hrx, htx.writeEnvelope (by omega), hnb⟩
  | acked a fits => exact ⟨hrx, (htx.writeBytes (by omega)).writeEnvelope fits, hnb⟩
  | normalized bs fits inside read =>
    have hl := normBytes_length_le_rxCap fits inside read
    exact ⟨hrx, htx, hnb.writeBytes (by omega)⟩
  | reset => exact ⟨Memory.fits_nil _, Memory.fits_nil _, Memory.fits_nil _⟩
  | _ => exact ⟨hrx, htx, hnb⟩

theorem State.BuffersFit.write {s t : State} (hs : s.BuffersFit) (w : HostWrite s t) : t.BuffersFit := by
  obtain ⟨hrx, htx, hnb⟩ := hs
  cases w with
  | rxByte i b inside => exact ⟨hrx.write b inside, htx, hnb⟩
  | txByte i b inside => exact ⟨hrx, htx.write b inside, hnb⟩
  | _ => exact ⟨hrx, htx, hnb⟩

theorem buffersFit_keptBySteps : KeptBySteps State.BuffersFit where
  command := State.BuffersFit.command
  write := State.BuffersFit.write

/-- Settles O50: each byte a command or a host write stores lies inside the buffer it goes to. -/
theorem stepKeepsBuffersWf : Obligations.StepKeepsBuffersWf := by
  intro s t hs h
  rw [State.buffersWf_iff_buffersFit] at hs ⊢
  exact buffersFit_keptBySteps.step hs h

/-! ### The decode and parse results (10_state.md R35) -/

/-- DECODE reports a frame only with FRAME_OK = 1 (41_frame_codec.md R74). -/
theorem frameOk_of_decodeFrame {f : List Byte} {regs : DecodeRegs} (h : decodeFrame f = .ok regs) :
    regs.frameOk = true := by
  unfold decodeFrame at h
  split at h
  · cases h
  · split at h
    · cases h
    · cases h
      rfl

@[simp] theorem ParseRegs.withTs_parsed (r : ParseRegs) (o : Option TsFields) :
    (r.withTs o).parsed = r.parsed := by cases o <;> rfl

@[simp] theorem ParseRegs.withTs_matched (r : ParseRegs) (o : Option TsFields) :
    (r.withTs o).matched = r.matched := by cases o <;> rfl

@[simp] theorem ParseRegs.withTs_present (r : ParseRegs) (o : Option TsFields) :
    (r.withTs o).present = r.present := by cases o <;> rfl

@[simp] theorem ParseRegs.withTs_fRcv (r : ParseRegs) (o : Option TsFields) :
    (r.withTs o).fRcv = r.fRcv := by cases o <;> rfl

@[simp] theorem ParseRegs.withTs_fExt (r : ParseRegs) (o : Option TsFields) :
    (r.withTs o).fExt = r.fExt := by cases o <;> rfl

@[simp] theorem ParseRegs.withTs_fTs (r : ParseRegs) (o : Option TsFields) :
    (r.withTs o).fTs = r.fTs := by cases o <;> rfl

/-- PARSE reports PARSED = 1 whether the grammar matches or not (42_parser.md R83). -/
@[simp] theorem parsePayload_parsed (p : List Byte) : (parsePayload p).parsed = true := by
  unfold parsePayload
  split
  · rfl
  · exact ParseRegs.withTs_parsed _ _

theorem State.decodeFresh_of_cleared {s : State} (h : s.dec = DecodeRegs.cleared) : s.DecodeFresh := by
  simp [State.DecodeFresh, h, DecodeRegs.cleared]

theorem State.parseFresh_of_cleared {s : State} (h : s.prs = ParseRegs.cleared) : s.ParseFresh := by
  simp [State.ParseFresh, h, ParseRegs.cleared]

theorem State.fresh_of_cleared {s : State} (hd : s.dec = DecodeRegs.cleared) (hp : s.prs = ParseRegs.cleared) :
    s.Fresh :=
  ⟨State.decodeFresh_of_cleared hd, State.parseFresh_of_cleared hp⟩

/-- The results of a frame that the chunk in RXBUF decodes to describe it. -/
theorem State.decodeFresh_of_decodeFrame {s : State} {f : List Byte} (fits : s.rxLen.toNat ≤ s.params.rxCap.toNat)
    (read : s.rxs 0 s.rxLen.toNat = .ok f) (frame : decodeFrame f = .ok s.dec) : s.DecodeFresh :=
  ⟨fun h => absurd (frameOk_of_decodeFrame frame) (by simp [h]), fun _ => ⟨fits, f, read, frame⟩⟩

/-- The results of the payload in RXBUF describe it. -/
theorem State.parseFresh_of_parsePayload {s : State} {p : List Byte} (frame : s.dec.frameOk = true)
    (read : s.payload = .ok p) (h : s.prs = parsePayload p) : s.ParseFresh :=
  ⟨fun hn => absurd (parsePayload_parsed p) (by simp [← h, hn]), fun _ => ⟨frame, p, read, h⟩⟩

theorem State.Fresh.command {s t : State} (hs : s.Fresh) (e : Effect s t) : t.Fresh := by
  cases e with
  | decoded f regs fits read frame =>
    exact ⟨State.decodeFresh_of_decodeFrame fits read frame, State.parseFresh_of_cleared rfl⟩
  | notParsed _ => exact ⟨hs.1, State.parseFresh_of_cleared rfl⟩
  | parsed p frame read => exact ⟨hs.1, State.parseFresh_of_parsePayload frame read rfl⟩
  | rejected c => exact State.fresh_of_cleared rfl rfl
  | reset => exact State.fresh_of_cleared rfl rfl
  | _ => exact hs

theorem State.Fresh.write {s t : State} (hs : s.Fresh) (w : HostWrite s t) : t.Fresh := by
  cases w with
  | rxLen n => exact State.fresh_of_cleared rfl rfl
  | rxByte i b _ => exact State.fresh_of_cleared rfl rfl
  | _ => exact hs

theorem fresh_keptBySteps : KeptBySteps State.Fresh where
  command := State.Fresh.command
  write := State.Fresh.write

/-- Settles O52: a command that writes results writes those of what RXBUF holds, and every write to the chunk clears
them. -/
theorem stepKeepsFresh : Obligations.StepKeepsFresh :=
  fun _ _ hs h => fresh_keptBySteps.step hs h

/-! ### The finished outbound frame (10_state.md R22) -/

/-- The envelope round a payload that stands at `TX[5..)` finishes its frame. -/
theorem State.txFresh_of_writeEnvelope {t : State} {tx : Memory} {p : List Byte}
    (fits : p.length + 6 ≤ t.params.txCap.toNat) (read : Memory.readBytes .tx tx 5 p.length = .ok p)
    (hbuf : t.txbuf = writeEnvelope tx p) (hplen : t.txPlen.toNat = p.length)
    (hlen : t.txLen = BitVec.ofNat 16 (p.length + 6)) : t.TxFresh := by
  have hlen' : t.txLen.toNat = p.length + 6 := by rw [hlen, toNat_ofNat_of_le_cap fits]
  refine .inr ⟨by omega, by omega, p, ?_, ?_⟩
  · rw [State.txs, hbuf, hplen, readBytes_payload_writeEnvelope, read]
  · rw [State.txs, hbuf, hlen', readBytes_writeEnvelope tx p read]

theorem State.TxFresh.command {s t : State} (hs : s.TxFresh) (e : Effect s t) : t.TxFresh := by
  cases e with
  | noFrame c => exact .inl rfl
  | reset => exact .inl rfl
  | encoded p fits read =>
    have hl : p.length = s.txPlen.toNat := Memory.readBytes_length read
    rw [← hl] at fits ⊢
    exact State.txFresh_of_writeEnvelope fits (hl ▸ read) rfl hl.symm rfl
  | acked a fits =>
    have hplen : (BitVec.ofNat 16 a.length).toNat = a.length :=
      toNat_ofNat_of_le_cap (cap := s.params.txCap) (by omega)
    exact State.txFresh_of_writeEnvelope fits (Memory.readBytes_writeBytes .tx s.txbuf 5 a) rfl hplen rfl
  | _ => exact hs

theorem State.TxFresh.write {s t : State} (hs : s.TxFresh) (w : HostWrite s t) : t.TxFresh := by
  cases w with
  | txPlen n => exact .inl rfl
  | txByte i b _ => exact .inl rfl
  | _ => exact hs

theorem txFresh_keptBySteps : KeptBySteps State.TxFresh where
  command := State.TxFresh.command
  write := State.TxFresh.write

/-- Settles O53: ENCODE and BUILD_ACK set TX_LEN only round a payload that stands in TXBUF, and every write to TXBUF or
TX_PLEN clears it. -/
theorem stepKeepsTxFresh : Obligations.StepKeepsTxFresh :=
  fun _ _ hs h => txFresh_keptBySteps.step hs h

/-! ### Reading a byte string (10_state.md R34) -/

theorem Memory.readBytes_error_of_read_none (buf : Buffer) {m : Memory} {off : Nat} (n : Nat)
    (h : m.read off = none) : Memory.readBytes buf m off (n + 1) = .error (.uninitRead buf off) := by
  simp [Memory.readBytes, h]

/-- After a written byte the read faults exactly where the rest of it does. -/
theorem Memory.readBytes_succ_error_iff (buf : Buffer) {m : Memory} {off : Nat} {b : Byte} (n : Nat) (f : Fault)
    (h : m.read off = some b) :
    Memory.readBytes buf m off (n + 1) = .error f ↔ Memory.readBytes buf m (off + 1) n = .error f := by
  cases hr : Memory.readBytes buf m (off + 1) n <;> simp [Memory.readBytes, h, hr]

theorem Memory.readBytes_error_iff (buf : Buffer) (m : Memory) (off n : Nat) (f : Fault) :
    Memory.readBytes buf m off n = .error f ↔
      ∃ i < n, m.read (off + i) = none ∧ (∀ j < i, m.read (off + j) ≠ none) ∧
        f = .uninitRead buf (off + i) := by
  induction n generalizing off with
  | zero => simp
  | succ n ih =>
    cases hr : m.read off with
    | none =>
      rw [Memory.readBytes_error_of_read_none buf n hr]
      constructor
      · rintro ⟨⟩
        exact ⟨0, by omega, hr, by simp, rfl⟩
      · rintro ⟨i, -, -, hall, rfl⟩
        cases i with
        | zero => rfl
        | succ i => exact absurd hr (hall 0 (by omega))
    | some b =>
      have hshift : ∀ i, off + 1 + i = off + (i + 1) := fun i => by omega
      simp only [Memory.readBytes_succ_error_iff buf n f hr, ih, hshift]
      constructor
      · rintro ⟨i, hi, hnone, hall, rfl⟩
        refine ⟨i + 1, by omega, hnone, fun j hj => ?_, rfl⟩
        cases j with
        | zero => simp [hr]
        | succ j => exact hall j (by omega)
      · rintro ⟨i, hi, hnone, hall, rfl⟩
        cases i with
        | zero => simp [hr] at hnone
        | succ i => exact ⟨i, by omega, hnone, fun j hj => hall (j + 1) (by omega), rfl⟩

/-- Settles O21, by induction on the number of bytes. -/
theorem readBytesFaultsOnFirstUnwritten : Obligations.ReadBytesFaultsOnFirstUnwritten :=
  Memory.readBytes_error_iff

/-! ### Commands that ignore the accumulator (10_state.md R18) -/

/-- An outcome with the accumulator of its next state, if it has one, replaced. -/
def storeAcc (c : Half) : Outcome → Outcome
  | .next t => .next { t with acc := c }
  | .fault f => .fault f
  | .refused r => .refused r

theorem storeAcc_withBytes (c : Half) (r : Except Fault (List Byte)) (k : List Byte → Outcome) :
    storeAcc c (withBytes r k) = withBytes r fun bs => storeAcc c (k bs) := by
  cases r <;> rfl

section
variable (c : Half) (s : State)

theorem execDecode_withAcc : execDecode { s with acc := c } = storeAcc c (execDecode s) := by
  unfold execDecode
  split
  · rfl
  · rw [storeAcc_withBytes]
    refine congrArg (withBytes _) (funext fun f => ?_)
    cases decodeFrame f <;> rfl

theorem execEncode_withAcc : execEncode { s with acc := c } = storeAcc c (execEncode s) := by
  unfold execEncode
  split
  · rfl
  · rw [storeAcc_withBytes]
    rfl

theorem sendAck_withAcc (a : List Byte) : sendAck { s with acc := c } a = { sendAck s a with acc := c } := by
  unfold sendAck
  split <;> rfl

theorem execBuildAck_withAcc : execBuildAck { s with acc := c } = storeAcc c (execBuildAck s) := by
  unfold execBuildAck
  split
  · rfl
  · split
    · rfl
    · simp only [storeAcc_withBytes, sendAck_withAcc]
      rfl

theorem execParse_withAcc : execParse { s with acc := c } = storeAcc c (execParse s) := by
  unfold execParse
  split
  · rfl
  · rw [storeAcc_withBytes]
    rfl

theorem execNormalize_withAcc : execNormalize { s with acc := c } = storeAcc c (execNormalize s) := by
  unfold execNormalize withSpanOperand
  split
  · rfl
  · split
    · rfl
    · rw [storeAcc_withBytes]
      rfl

/-- The codec, the parser and the normaliser do the same whatever stands in ACC, and leave it there. -/
theorem exec_withAcc {i : Instr}
    (hi : i = .decode ∨ i = .encode ∨ i = .buildAck ∨ i = .parse ∨ i = .normalize) :
    exec i { s with acc := c } = storeAcc c (exec i s) := by
  rcases hi with rfl | rfl | rfl | rfl | rfl
  · exact execDecode_withAcc c s
  · exact execEncode_withAcc c s
  · exact execBuildAck_withAcc c s
  · exact execParse_withAcc c s
  · exact execNormalize_withAcc c s

end

/-- Settles O28: that ACC is not written is the case of a state with its own accumulator put back. -/
theorem codecIgnoresAccumulator : Obligations.CodecIgnoresAccumulator := by
  refine fun i s c hi => ⟨fun t ht => ⟨?_, ?_⟩, fun f hf => ?_⟩
  · have h : exec i s = storeAcc s.acc (exec i s) := exec_withAcc s.acc s hi
    rw [ht] at h
    injection h with h
    rw [h]
  · rw [exec_withAcc c s hi, ht]
    rfl
  · rw [exec_withAcc c s hi, hf]
    rfl

/-! ### Register accesses (10_state.md R15 to R32) -/

theorem lt_of_regAt {a : Nat} {r : Reg} (h : regAt a = some r) : a < 0x60 := by
  unfold regAt at h
  split at h
  · have hlt := (List.getElem?_eq_some_iff.1 h).1
    simp only [regList, List.length_cons, List.length_nil] at hlt
    omega
  · cases h

/-- A read of a register while no command is pending returns its value and changes nothing of the block. -/
theorem step_read_register {s : State} {a : Nat} {r : Reg} {rest : List Input} (he : s.eng = .idle)
    (h : s.inputs = .read (s.params.base + a) 4 :: rest) (hr : regAt a = some r) :
    step s = .next { s with inputs := rest, lastRead := some (.word (s.readReg r)) } := by
  have hb := busTarget_register s.params (dir := .read) (lt_of_regAt hr) hr (by simp)
  have he' : s.popInput.eng = .idle := he
  rw [step_read h hb, readTarget_idle he', popInput_cons h]
  cases r <;> rfl

/-- A write to a register that is not RO, and not CRC_DIN, while no command is pending. -/
theorem step_write_register {s : State} {a : Nat} {r : Reg} {d : Word} {rest : List Input} (he : s.eng = .idle)
    (h : s.inputs = .write (s.params.base + a) 4 d :: rest) (hr : regAt a = some r) (hw : r.readOnly = false)
    (hd : r ≠ .crcDin) : step s = .next (State.writeReg { s with inputs := rest } d r) := by
  have hb := busTarget_register s.params (dir := .write) (lt_of_regAt hr) hr fun _ => hw
  have he' : s.popInput.eng = .idle := he
  rw [step_write h hb (by simpa using hd), writeTarget_reg_idle he', popInput_cons h]

/-- The registers of a state: each offset with the value that a read there returns. -/
def State.registerMap (s : State) : List (Nat × Word) := regList.zipIdx.map fun x => (4 * x.2, s.readReg x.1)

theorem regAt_of_mem_registerMap {s : State} {a : Nat} {v : Word} (h : (a, v) ∈ s.registerMap) :
    ∃ r, regAt a = some r ∧ v = s.readReg r := by
  obtain ⟨⟨r, i⟩, hx, hav⟩ := List.mem_map.1 h
  cases hav
  refine ⟨r, ?_, rfl⟩
  rw [regAt, if_pos (by simp), Nat.mul_div_cancel_left i (by decide)]
  exact List.mem_zipIdx_iff_getElem?.1 hx

/-- Settles O39: the list of the statement is the register map. -/
theorem registerReads : Obligations.RegisterReads := by
  intro s a v rest he h hav
  obtain ⟨r, hr, rfl⟩ := regAt_of_mem_registerMap (s := s) hav
  exact step_read_register he h hr

/-- Settles O40: each of the four offsets holds an RW register, and its write is what the statement says. -/
theorem registerWrites : Obligations.RegisterWrites := fun _ _ _ he =>
  ⟨fun h => step_write_register (r := .crc) he h rfl rfl (by decide),
    fun h => step_write_register (r := .rxLen) he h rfl rfl (by decide),
    fun h => step_write_register (r := .txPlen) he h rfl rfl (by decide),
    fun h => step_write_register (r := .span) he h rfl rfl (by decide)⟩

/-! ### The pending command (10_state.md R33) -/

/-- A command leaves the engine IDLE, CRC_BYTE because it runs only where it is (43_control.md R94, 40_crc.md R72). -/
theorem Effect.eng_idle {s t : State} (e : Effect s t) : t.eng = .idle := by
  cases e with
  | byte b idle => exact idle
  | _ => rfl

theorem State.pendingOk_of_idle {s : State} (h : s.eng = .idle) : s.PendingOk := by
  simp [State.PendingOk, h]

theorem State.issue_pendingOk (s : State) (op : Byte) : (s.issue op).PendingOk := by
  rintro op' ⟨⟩
  exact ⟨rfl, rfl⟩

theorem pendingOk_keptBySteps : KeptBySteps State.PendingOk where
  command _ e := State.pendingOk_of_idle e.eng_idle
  write hs w := by
    cases w with
    | issue op => exact State.issue_pendingOk _ op
    | _ => exact hs

/-- Settles O51: a CMD write makes the command pending that LAST_OP names, and a command that runs leaves none. -/
theorem stepKeepsPendingOk : Obligations.StepKeepsPendingOk :=
  fun _ _ hs h => pendingOk_keptBySteps.step hs h

/-! ### The normalised identifier (10_state.md R31) -/

theorem State.NormFresh.command {s t : State} (hs : s.NormFresh) (e : Effect s t) : t.NormFresh := by
  cases e with
  | normalized bs fits inside read =>
    have hl := normBytes_length_le_rxCap fits inside read
    have hlen := toNat_ofNat_of_le_cap hl
    refine ⟨hlen.trans_le hl, normBytes bs, ?_, normFrom_noSep false bs⟩
    simp only [State.finish_normLen, State.finish_normbuf, hlen, Memory.readBytes_writeBytes]
  | reset => exact ⟨Nat.zero_le _, [], rfl, by simp⟩
  | _ => exact hs

theorem normFresh_keptBySteps : KeptBySteps State.NormFresh where
  command := State.NormFresh.command
  write hs w := by cases w <;> exact hs

/-- Settles O54: only NORMALIZE and a reset write NORM_LEN or NORMBUF. -/
theorem stepKeepsNormFresh : Obligations.StepKeepsNormFresh :=
  fun _ _ hs h => normFresh_keptBySteps.step hs h

/-! ### The parameters (10_state.md R32) -/

theorem params_keptBySteps (p : Params) : KeptBySteps fun s => s.params = p where
  command hs e := by cases e <;> exact hs
  write hs w := by cases w <;> exact hs

/-- Settles O55: no command and no host write stores a parameter. -/
theorem stepKeepsParams : Obligations.StepKeepsParams := by
  refine fun s => ⟨rfl, fun t h => ?_⟩
  have hp : t.params = s.params := (params_keptBySteps s.params).step rfl h
  exact ⟨hp, congrArg capsWord hp⟩

/-! ### PRESENT (10_state.md R26, R28) -/

theorem grammarMatch_some {p : List Byte} {m : Match} (h : grammarMatch p = some m) :
    ∃ i, tryMatch p i = some m := by
  obtain ⟨i, -, hi⟩ := List.exists_of_findSome?_eq_some h
  exact ⟨i, hi⟩

theorem Token.bytes_length_le (p : List Byte) (t : Token) : (t.bytes p).length ≤ t.len := by
  simp [Token.bytes, slice]

/-- A token of at least one byte and at most `n`. -/
def Token.HasBytes (n : Nat) (t : Token) : Prop := 1 ≤ t.len ∧ t.len ≤ n

/-- The receiver, extension and timestamp groups that took part in a match have at least one byte each, inside the
payload. -/
theorem tryMatch_optional_hasBytes {p : List Byte} {i : Nat} {m : Match} (h : tryMatch p i = some m) :
    (∀ t, m.rcv = some t → t.HasBytes p.length) ∧ (∀ t, m.ext = some t → t.HasBytes p.length) ∧
      ∀ t, m.ts = some t → t.HasBytes p.length := by
  obtain ⟨s, t, t', a, b, c, -, hseq, hrcv, -, -, hmdata, hext, hts, -, -⟩ := tryMatch_some h
  obtain ⟨-, -, ht, -, -⟩ := matchSeq_some hseq
  obtain ⟨-, ht', -, hr, -⟩ := matchRcv_some ht hrcv
  obtain ⟨-, hc, -, -, -⟩ := matchMdata_some hmdata
  obtain ⟨-, hc', -, he, -⟩ := matchExt_spec p c hc
  obtain ⟨-, -, -, hs, -⟩ := matchTs_spec p _ hc'
  refine ⟨fun k hk => ?_, fun k hk => ?_, fun k hk => ?_⟩
  · obtain ⟨rfl, hcls⟩ := hr k hk
    exact ⟨hcls.1.trans (Token.bytes_length_le p _), by dsimp only; omega⟩
  · obtain ⟨rfl, hcls⟩ := he k (hext ▸ hk)
    exact ⟨hcls.1.trans (Token.bytes_length_le p _), by dsimp only; omega⟩
  · obtain ⟨rfl, hlen, -⟩ := hs k (hts ▸ hk)
    exact ⟨hlen.trans (Token.bytes_length_le p _), Nat.sub_le _ _⟩

/-- The register of an optional field has a length exactly where its group took part. -/
theorem Span.ofOption_len_ne_zero {n : Nat} (hn : n < 65536) (o : Option Token)
    (h : ∀ t, o = some t → t.HasBytes n) : decide ((Span.ofOption o).len ≠ 0#16) = o.isSome := by
  cases o with
  | none => rfl
  | some t =>
    obtain ⟨h1, h2⟩ := h t rfl
    have hne : BitVec.ofNat 16 t.len ≠ 0#16 := fun h0 => by
      have := congrArg BitVec.toNat h0
      simp only [BitVec.toNat_ofNat, Nat.mod_eq_of_lt (show t.len < 2 ^ 16 by omega)] at this
      omega
    simp [Span.ofOption, Span.ofToken, hne]

/-- The bits of PRESENT for a match (10_state.md R26). -/
theorem presentBits_getLsbD : ∀ rcv ext ts : Bool,
    (presentBits rcv ext ts).getLsbD 0 = true ∧ (presentBits rcv ext ts).getLsbD 1 = true ∧
    (presentBits rcv ext ts).getLsbD 3 = true ∧ (presentBits rcv ext ts).getLsbD 4 = true ∧
    (presentBits rcv ext ts).getLsbD 5 = true ∧ (presentBits rcv ext ts).getLsbD 2 = rcv ∧
    (presentBits rcv ext ts).getLsbD 6 = ext ∧ (presentBits rcv ext ts).getLsbD 7 = ts := by
  decide

/-- PRESENT agrees with MATCH and with the lengths of the optional fields. -/
def ParseRegs.PresentOk (r : ParseRegs) : Prop :=
  (r.matched = false → r.present = 0#8) ∧
  (r.matched = true →
    r.present.getLsbD 0 = true ∧ r.present.getLsbD 1 = true ∧ r.present.getLsbD 3 = true ∧
    r.present.getLsbD 4 = true ∧ r.present.getLsbD 5 = true ∧
    r.present.getLsbD 2 = decide (r.fRcv.len ≠ 0#16) ∧ r.present.getLsbD 6 = decide (r.fExt.len ≠ 0#16) ∧
    r.present.getLsbD 7 = decide (r.fTs.len ≠ 0#16))

theorem ParseRegs.presentOk_of_not_matched {r : ParseRegs} (hm : r.matched = false) (hp : r.present = 0#8) :
    r.PresentOk :=
  ⟨fun _ => hp, fun h => absurd h (by simp [hm])⟩

theorem Match.regs_presentOk {p : List Byte} {i : Nat} {m : Match} (hp : p.length < 65536)
    (h : tryMatch p i = some m) : (m.regs p).PresentOk := by
  obtain ⟨hrcv, hext, hts⟩ := tryMatch_optional_hasBytes h
  refine ⟨by simp [Match.regs], fun _ => ?_⟩
  simp only [Match.regs, ParseRegs.withTs_present, ParseRegs.withTs_fRcv, ParseRegs.withTs_fExt,
    ParseRegs.withTs_fTs, Span.ofOption_len_ne_zero hp _ hrcv, Span.ofOption_len_ne_zero hp _ hext,
    Span.ofOption_len_ne_zero hp _ hts]
  exact presentBits_getLsbD _ _ _

theorem parsePayload_presentOk {p : List Byte} (hp : p.length < 65536) : (parsePayload p).PresentOk := by
  unfold parsePayload
  split
  · exact ParseRegs.presentOk_of_not_matched rfl rfl
  · rename_i m hm
    obtain ⟨i, hi⟩ := grammarMatch_some hm
    exact Match.regs_presentOk hp hi

/-- Settles O57: the payload PARSE read has at most 65535 bytes, so no field with bytes has a length that reads 0. -/
theorem presentFollowsFields : Obligations.PresentFollowsFields := by
  rintro s ⟨-, hzero, hpayload⟩
  show s.prs.PresentOk
  cases hq : s.prs.parsed with
  | false =>
    rw [hzero hq]
    exact ParseRegs.presentOk_of_not_matched rfl rfl
  | true =>
    obtain ⟨-, p, hread, hprs⟩ := hpayload hq
    have hl : p.length = s.dec.comp.len.toNat := Memory.readBytes_length hread
    rw [hprs]
    exact parsePayload_presentOk (hl ▸ s.dec.comp.len.isLt)

/-! ### STATUS (10_state.md R17) -/

/-- Settles O38: each field is reached by dropping the fields below it from the concatenation. -/
theorem statusFields : Obligations.StatusFields := by
  intro s
  unfold State.statusWord
  refine ⟨?busy, ?done, ?low, ?result, ?frameOk, ?parsed, ?matched, ?tsOk, ?crcMatch, ?lenMatch, ?high⟩
  case low | result =>
    repeat rw [BitVec.extractLsb'_append_eq_of_le (by decide)]
    rw [BitVec.extractLsb'_append_eq_of_add_le (by decide)]
    exact BitVec.extractLsb'_eq_self
  case high =>
    repeat rw [BitVec.extractLsb'_append_eq_of_le (by decide)]
    exact BitVec.extractLsb'_eq_self
  all_goals
    repeat rw [BitVec.getLsbD_append, if_neg (by decide)]
    rw [BitVec.getLsbD_append, if_pos (by decide)]
    simp

end Sys2Proof.Machine
end

section
/-! PROOFS. The statements about the bus and the order of an execution (20_memory.md): the engine step among the STATUS
polls, the bus errors, the accesses to the buffers, and reads without a side effect. -/

namespace Sys2Proof.Machine

/-! ### Where the engine step falls (20_memory.md R50, R51) -/

/-- A state with another host's side of the bus (assumptions 3 and 6). -/
abbrev State.withHost (s : State) (ins : List Input) (d : Option BusData) : State :=
  { s with inputs := ins, lastRead := d }

/-- An outcome with the host's side of the bus of its next state, if it has one, replaced. -/
def storeHost (ins : List Input) (d : Option BusData) : Outcome → Outcome
  | .next t => .next (t.withHost ins d)
  | .fault f => .fault f
  | .refused r => .refused r

section
variable (ins : List Input) (d : Option BusData) (s : State)

theorem storeHost_withBytes (r : Except Fault (List Byte)) (k : List Byte → Outcome) :
    storeHost ins d (withBytes r k) = withBytes r fun bs => storeHost ins d (k bs) := by
  cases r <;> rfl

/-- The span operand is not on the host's side, so a command over it ignores that side where its own end does. -/
theorem withSpanOperand_withHost {k k' : List Byte → Outcome} (hk : ∀ bs, k' bs = storeHost ins d (k bs)) :
    withSpanOperand (s.withHost ins d) k' = storeHost ins d (withSpanOperand s k) := by
  rw [funext hk]
  unfold withSpanOperand
  split
  · rfl
  · split
    · rfl
    · rw [storeHost_withBytes]
      rfl

theorem execDecode_withHost : execDecode (s.withHost ins d) = storeHost ins d (execDecode s) := by
  unfold execDecode
  split
  · rfl
  · rw [storeHost_withBytes]
    refine congrArg (withBytes _) (funext fun f => ?_)
    cases decodeFrame f <;> rfl

theorem execEncode_withHost : execEncode (s.withHost ins d) = storeHost ins d (execEncode s) := by
  unfold execEncode
  split
  · rfl
  · rw [storeHost_withBytes]
    rfl

theorem sendAck_withHost (a : List Byte) : sendAck (s.withHost ins d) a = (sendAck s a).withHost ins d := by
  unfold sendAck
  split <;> rfl

theorem execBuildAck_withHost : execBuildAck (s.withHost ins d) = storeHost ins d (execBuildAck s) := by
  unfold execBuildAck
  split
  · rfl
  · split
    · rfl
    · simp only [storeHost_withBytes, sendAck_withHost]
      rfl

theorem execParse_withHost : execParse (s.withHost ins d) = storeHost ins d (execParse s) := by
  unfold execParse
  split
  · rfl
  · rw [storeHost_withBytes]
    rfl

theorem execCrcByte_withHost (b : Byte) :
    execCrcByte b (s.withHost ins d) = storeHost ins d (execCrcByte b s) := by
  simp only [execCrcByte]
  cases s.eng <;> rfl

/-- A command does the same whatever the host's side of the bus holds, and leaves that side as it is. -/
theorem exec_withHost (i : Instr) : exec i (s.withHost ins d) = storeHost ins d (exec i s) := by
  cases i with
  | nop | crcInit | srst | illegal op => rfl
  | crcRx => exact withSpanOperand_withHost ins d s fun _ => rfl
  | decode => exact execDecode_withHost ins d s
  | encode => exact execEncode_withHost ins d s
  | buildAck => exact execBuildAck_withHost ins d s
  | parse => exact execParse_withHost ins d s
  | normalize => exact withSpanOperand_withHost ins d s fun _ => rfl
  | crcByte b => exact execCrcByte_withHost ins d s b

end

theorem exec_next_params {i : Instr} {s t : State} (h : exec i s = .next t) : t.params = s.params :=
  (params_keptBySteps s.params).command rfl (exec_next h)

/-- The host's read of STATUS (20_memory.md R51). -/
def State.poll (s : State) : Input := .read (s.params.base + 0x004) 4

/-- STATUS may be read whether a command is pending or not (70_reset_and_hazards.md R114). -/
theorem readTarget_status (a : Nat) (s : State) :
    readTarget a (.reg .status) s = .next (s.receive (.word s.statusWord)) := by
  simp [readTarget, hazard, State.readReg]

theorem step_poll (s : State) (rest : List Input) (d : Option BusData) :
    step (s.withHost (s.poll :: rest) d) = .next (s.withHost rest (some (.word s.statusWord))) := by
  have hb : busTarget s.params 0x004 4 .read = .ok (.reg .status) :=
    busTarget_register s.params (by decide) rfl (by simp)
  rw [step_read (s := s.withHost _ d) rfl hb, readTarget_status]
  rfl

/-- Polling changes nothing but what the host last read. -/
theorem core_run_polls (s : State) (n k : Nat) (rest : List Input) (d : Option BusData) :
    ∃ d', Host.Core.run Sys2Proof.core (n + k) (s.withHost (List.replicate n s.poll ++ rest) d) =
      Host.Core.run Sys2Proof.core k (s.withHost rest d') := by
  induction n generalizing d with
  | zero => exact ⟨d, by rw [Nat.zero_add]; rfl⟩
  | succ n ih =>
    obtain ⟨d', h⟩ := ih (some (.word s.statusWord))
    refine ⟨d', ?_⟩
    rw [Nat.add_right_comm, ← h]
    exact core_run_succ (n + k) (step_poll s _ d)

/-- The engine's step runs the pending command whatever the host's side holds. -/
theorem step_engine_withHost {s t : State} {op : Byte} (he : s.eng = .busy op)
    (h : exec (decodeOp op) { s with inputs := [] } = .next t) (rest : List Input) (d : Option BusData) :
    step (s.withHost (.engine :: rest) d) = .next (t.withHost rest d) := by
  have hrun : exec (decodeOp op) (s.withHost rest d) = .next (t.withHost rest d) := by
    have hw := exec_withHost rest d { s with inputs := [] } (decodeOp op)
    rwa [h] at hw
  have hturn : nextTurn (s.withHost (.engine :: rest) d) = .command (decodeOp op) (s.withHost rest d) := by
    simp [nextTurn, State.withHost, engineTurn, State.popInput, he]
  rw [step, hturn]
  exact hrun

/-- Settles O9: the polls before the engine step and all but the last one after it change only `lastRead`, which no
command looks at. -/
theorem engineStepPositionFree : Obligations.EngineStepPositionFree := by
  intro s t op early late he h
  have hpoll : s.poll = t.poll := by rw [State.poll, State.poll, exec_next_params h]
  obtain ⟨d₁, hearly⟩ :=
    core_run_polls s early (1 + (late + 1)) (.engine :: List.replicate (late + 1) s.poll) s.lastRead
  obtain ⟨d₂, hlate⟩ := core_run_polls t late 1 [t.poll] d₁
  calc
    _ = Host.Core.run Sys2Proof.core (1 + (late + 1))
          (s.withHost (.engine :: List.replicate (late + 1) s.poll) d₁) := by
        rw [← hearly, Nat.add_assoc]
        rfl
    _ = Host.Core.run Sys2Proof.core (late + 1) (t.withHost (List.replicate late t.poll ++ [t.poll]) d₁) := by
        rw [Nat.add_comm, ← List.replicate_succ', ← hpoll]
        exact core_run_succ (late + 1) (step_engine_withHost he h _ d₁)
    _ = Host.Core.run Sys2Proof.core 1 (t.withHost [t.poll] d₂) := hlate
    _ = .next (t.withHost [] (some (.word t.statusWord))) := core_run_succ 0 (step_poll t [] d₂)

/-! ### Bus errors (20_memory.md R41, R45) -/

section
variable {p : Params} {a w i : Nat} {dir : Direction} {b : Buffer} {r : Reg}

/-- The three windows of the address map, written out. -/
theorem mem_windows_iff : ((0x10000 ≤ a ∧ a < 0x10000 + p.rxCap.toNat) ∨
    (0x20000 ≤ a ∧ a < 0x20000 + p.txCap.toNat) ∨ (0x30000 ≤ a ∧ a < 0x30000 + p.rxCap.toNat)) ↔
    ∃ b i, regionOf p a = .window b i := by
  simp only [regionOf_window_iff]
  constructor
  · rintro (h | h | h)
    · exact ⟨.rx, a - 0x10000, by simp only [windowBase, bufferCap]; omega⟩
    · exact ⟨.tx, a - 0x20000, by simp only [windowBase, bufferCap]; omega⟩
    · exact ⟨.nb, a - 0x30000, by simp only [windowBase, bufferCap]; omega⟩
  · rintro ⟨b, i, h⟩
    cases b <;> simp only [windowBase, bufferCap] at h <;> omega

theorem regionOf_reserved (hreg : ¬ a < 0x60) (hwin : ¬ ∃ b i, regionOf p a = .window b i) :
    regionOf p a = .reserved := by
  cases h : regionOf p a with
  | registers => exact absurd (lt_of_regionOf_registers h) hreg
  | window b i => exact absurd ⟨b, i, h⟩ hwin
  | reserved => rfl

theorem busTarget_unmapped (h : regionOf p a = .reserved) :
    busTarget p a w dir = .error (.busError a w .unmapped) := by
  rw [busTarget, h]

theorem busTarget_register_width (h : a < 0x60) (hw : w ≠ 4) :
    busTarget p a w dir = .error (.busError a w .width) := by
  rw [busTarget, regionOf_register p a h]
  exact if_pos hw

theorem busTarget_window_width (h : regionOf p a = .window b i) (hw : w ≠ 1) :
    busTarget p a w dir = .error (.busError a w .width) := by
  rw [busTarget, h]
  exact if_pos hw

theorem busTarget_align (h : a < 0x60) (ha : a % 4 ≠ 0) :
    busTarget p a 4 dir = .error (.busError a 4 .align) := by
  rw [busTarget, regionOf_register p a h]
  simp [regAt, ha]

theorem busTarget_register_readOnly (hr : regAt a = some r) (ho : r.readOnly = true) :
    busTarget p a 4 .write = .error (.busError a 4 .readOnly) := by
  rw [busTarget, regionOf_register p a (lt_of_regAt hr)]
  simp [hr, ho]

theorem busTarget_normbuf_readOnly (h : regionOf p a = .window .nb i) :
    busTarget p a 1 .write = .error (.busError a 1 .readOnly) := by
  rw [busTarget, h]
  simp

end

/-- Every register but the two W1 and the four RW ones is RO (10_state.md R15). -/
theorem regAt_readOnly {a : Nat} (h : a < 0x60) (ha : a % 4 = 0)
    (hn : a ∉ [0x000, 0x008, 0x00C, 0x010, 0x014, 0x01C]) : ∃ r, regAt a = some r ∧ r.readOnly = true := by
  have all : ∀ a < 0x60, a % 4 = 0 → a ∉ [0x000, 0x008, 0x00C, 0x010, 0x014, 0x01C] →
      (regAt a).map Reg.readOnly = some true := by decide
  exact Option.map_eq_some_iff.1 (all a h ha hn)

/-- A bus error that does not depend on the direction of the access. -/
theorem step_access_error {s : State} {a w : Nat} {d : Word} {rest : List Input} {f : Fault}
    (h : s.inputs = .read (s.params.base + a) w :: rest ∨ s.inputs = .write (s.params.base + a) w d :: rest)
    (hb : ∀ dir, busTarget s.params a w dir = .error f) : step s = .fault f := by
  rcases h with h | h
  · exact step_read_error h (hb .read)
  · exact step_write_error h (hb .write)

/-- Settles O43, error by error. -/
theorem busErrors : Obligations.BusErrors := by
  intro s a w d rest
  rw [mem_windows_iff]
  refine ⟨fun h hin => ?unmapped, fun h hin => ?width, fun h hw ha hin => ?align, fun h hin => ?readOnly⟩
  case unmapped =>
    obtain ⟨hreg, hwin⟩ := not_or.1 h
    exact step_access_error hin fun _ => busTarget_unmapped (regionOf_reserved hreg hwin)
  case width =>
    rcases h with ⟨h, hw⟩ | ⟨⟨b, i, h⟩, hw⟩
    · exact step_access_error hin fun _ => busTarget_register_width h hw
    · exact step_access_error hin fun _ => busTarget_window_width h hw
  case align =>
    subst hw
    exact step_access_error hin fun _ => busTarget_align h ha
  case readOnly =>
    rcases h with ⟨h, rfl, ha, hn⟩ | ⟨hlo, hhi, rfl⟩
    · obtain ⟨r, hr, ho⟩ := regAt_readOnly h ha hn
      exact step_write_error hin (busTarget_register_readOnly hr ho)
    · have hwin : regionOf s.params a = .window .nb (a - 0x30000) :=
        (regionOf_window_iff _ _ _ _).2 (by simp only [windowBase, bufferCap]; omega)
      exact step_write_error hin (busTarget_normbuf_readOnly hwin)

/-! ### Buffer accesses (20_memory.md R42, 10_state.md R34, R35) -/

section
variable {s : State} {a i : Nat} {b : Buffer} (he : s.eng = .idle)
include he

/-- A read of a written byte while no command is pending. -/
theorem readTarget_buf_written {v : Byte} (hv : (s.buffer b).read i = some v) :
    readTarget a (.buf b i) s = .next (s.receive (.byte v)) := by
  simp [readTarget, hazard, State.busy, he, Eng.isBusy, hv]

/-- A read of an unwritten byte while no command is pending. -/
theorem readTarget_buf_unwritten (hv : (s.buffer b).read i = none) :
    readTarget a (.buf b i) s = .fault (.uninitRead b i) := by
  simp [readTarget, hazard, State.busy, he, Eng.isBusy, hv]

end

theorem popInput_buffer (s : State) (b : Buffer) : s.popInput.buffer b = s.buffer b := by
  cases b <;> rfl

/-- Settles O42: the offset is that of a byte inside a window, and the read is the buffer's. -/
theorem bufferReads : Obligations.BufferReads := by
  intro s a i buf rest he hin hwin
  obtain ⟨rfl, hi⟩ := (regionOf_window_iff _ _ _ _).1 hwin
  have he' : s.popInput.eng = .idle := he
  rw [step_read hin (busTarget_window s.params hi (by simp)), byteAtOffset_window s buf i hi, ← popInput_buffer]
  constructor
  · intro b hb
    rw [readTarget_buf_written he' hb, popInput_cons hin]
    rfl
  · intro hb
    exact readTarget_buf_unwritten he' hb

section
variable (s : State) (i : Nat) (b : Byte) {buf : Buffer}

theorem State.writeBuf_params : (s.writeBuf i b buf).params = s.params := by
  cases buf <;> rfl

theorem State.writeBuf_buffer (hw : buf ≠ .nb) (buf' : Buffer) :
    (s.writeBuf i b buf).buffer buf' =
      if buf' = buf then (s.buffer buf).write i b else s.buffer buf' := by
  cases buf with
  | nb => exact absurd rfl hw
  | rx => cases buf' <;> rfl
  | tx => cases buf' <;> rfl

/-- The byte written reads back, and every other byte of the address space keeps its value. -/
theorem byteAtOffset_writeBuf (hw : buf ≠ .nb) (hi : i < bufferCap s.params buf) :
    (s.writeBuf i b buf).byteAtOffset (windowBase buf + i) = some b ∧
    ∀ a, a ≠ windowBase buf + i → (s.writeBuf i b buf).byteAtOffset a = s.byteAtOffset a := by
  constructor
  · rw [byteAtOffset_window _ _ _ (by rwa [State.writeBuf_params]), State.writeBuf_buffer s i b hw, if_pos rfl,
      Memory.read_write_same]
  · intro a ha
    refine byteAtOffset_congr s _ (s.writeBuf_params i b) a fun buf' j hj => ?_
    rw [State.writeBuf_buffer s i b hw]
    split
    · subst buf'
      exact Memory.read_write_ne _ _ _ _ (by omega)
    · rfl

end

/-- A write of a byte inside RXBUF or TXBUF while no command is pending. -/
theorem step_write_byte {s : State} {i : Nat} {d : Word} {buf : Buffer} {rest : List Input} (he : s.eng = .idle)
    (hw : buf ≠ .nb) (hi : i < bufferCap s.params buf)
    (hin : s.inputs = .write (s.params.base + (windowBase buf + i)) 1 d :: rest) :
    step s = .next (State.writeBuf { s with inputs := rest } i (lowByte d) buf) := by
  have he' : s.popInput.eng = .idle := he
  rw [step_write hin (busTarget_window s.params hi fun _ => hw) (by simp), writeTarget_buf_idle he',
    popInput_cons hin]

/-- Settles O41: both writes are `State.writeBuf`, which writes the one byte of its buffer. -/
theorem bufferWrites : Obligations.BufferWrites := fun _ i _ _ he =>
  ⟨fun hi hin => ⟨_, step_write_byte (buf := .rx) he (by decide) hi hin, rfl,
      byteAtOffset_writeBuf _ i _ (by decide) hi⟩,
    fun hi hin => ⟨_, step_write_byte (buf := .tx) he (by decide) hi hin, rfl,
      byteAtOffset_writeBuf _ i _ (by decide) hi⟩⟩

/-! ### Reads (20_memory.md R46) -/

theorem readTarget_receive {a : Nat} {tg : Target} {s t : State} (h : readTarget a tg s = .next t) :
    ∃ d, t = s.receive d := by
  unfold readTarget at h
  split at h
  · cases h
  · split at h
    · cases h
      exact ⟨_, rfl⟩
    · split at h
      · cases h
      · cases h
        exact ⟨_, rfl⟩

theorem hostRead_receive {a w : Nat} {s t : State} (h : hostRead a w s = .next t) : ∃ d, t = s.receive d := by
  unfold hostRead at h
  split at h
  · cases h
  · split at h
    · cases h
    · exact readTarget_receive h

/-- Settles O45: a host read that answers a next state only hands the host what it read. -/
theorem readsHaveNoSideEffect : Obligations.ReadsHaveNoSideEffect := by
  intro s t addr w rest hin h
  have hstep : step s = hostRead addr w s.popInput := by simp [step, nextTurn, hin]
  obtain ⟨d, rfl⟩ := hostRead_receive (hstep ▸ h)
  rw [popInput_cons hin]
  rfl

end Sys2Proof.Machine
end

section
/-! PROOFS. The statements about the encodings (30_encoding.md): commands and bus words, the CRC_DIN write, and the
character classes. -/

namespace Sys2Proof

/-! ### Commands and bus words (30_encoding.md R54 to R56) -/

/-- Bits [31:8] of a command word are ignored. -/
@[simp] theorem lowByte_append (hi : BitVec 24) (b : Byte) : lowByte (hi ++ b) = b := by
  rw [lowByte, BitVec.extractLsb'_append_eq_of_add_le (by decide)]
  exact BitVec.extractLsb'_eq_self

@[simp] theorem lowByte_setWidth (b : Byte) : lowByte (b.setWidth 32) = b := by
  rw [lowByte, BitVec.extractLsb'_setWidth_of_le (by decide)]
  exact BitVec.extractLsb'_eq_self

@[simp] theorem lowByte_cmdWrite (op : Byte) : lowByte (cmdWrite op).data = op := lowByte_setWidth op

@[simp] theorem lowByte_dinWrite (b : Byte) : lowByte (dinWrite b).data = b := lowByte_setWidth b

theorem decodeWrite_cmdOffset (d : Word) : decodeWrite cmdOffset 4 d = .ok (decodeOp (lowByte d)) := rfl

theorem decodeWrite_dinOffset (d : Word) : decodeWrite dinOffset 4 d = .ok (.crcByte (lowByte d)) := rfl

/-- The shape of the bus write holds of every command, being given for each constructor. -/
theorem encodeShape (i : Instr) : Laws.EncodeShape.Statement i := by
  cases i with
  | crcByte b => exact Laws.EncodeShape.crcByte b
  | _ => exact Laws.EncodeShape.of_op rfl rfl

theorem encode_of_opOf_some {i : Instr} {op : Byte} (ho : opOf i = some op) : encode i = cmdWrite op :=
  (encodeShape i).1 op ho

/-- CRC_BYTE is the only command without an OP. -/
theorem exists_crcByte_of_opOf_none {i : Instr} (ho : opOf i = none) : ∃ b, i = .crcByte b := by
  cases i with
  | crcByte b => exact ⟨b, rfl⟩
  | _ => cases ho

theorem decodeOp_of_notMem_opcodeMap {op : Byte} (h : op ∉ opcodeMap) : decodeOp op = .illegal op := by
  simp only [opcodeMap, List.mem_cons, List.not_mem_nil, or_false, not_or] at h
  simp only [decodeOp, h, if_false]

/-- A command that has an OP is what the opcode map gives for it; for an illegal one this is what well-formedness
says. -/
theorem decodeOp_of_opOf_some {i : Instr} {op : Byte} (hw : i.wellFormed = true) (ho : opOf i = some op) :
    decodeOp op = i := by
  cases i with
  | crcByte b => cases ho
  | illegal op' =>
    cases ho
    exact decodeOp_of_notMem_opcodeMap (by simpa [Instr.wellFormed] using hw)
  | _ =>
    cases ho
    rfl

/-- The low byte of the data decides what a write to a command's register sends. -/
theorem decodeWrite_of_lowByte_encode {i : Instr} {d : Word} (hw : i.wellFormed = true)
    (hd : lowByte d = lowByte (encode i).data) : decodeWrite (encode i).offset 4 d = .ok i := by
  cases ho : opOf i with
  | none =>
    obtain ⟨b, rfl⟩ := exists_crcByte_of_opOf_none ho
    have hb : lowByte d = b := hd.trans (lowByte_dinWrite b)
    exact (decodeWrite_dinOffset d).trans (by rw [hb])
  | some op =>
    rw [encode_of_opOf_some ho, lowByte_cmdWrite] at hd
    rw [encode_of_opOf_some ho]
    exact (decodeWrite_cmdOffset d).trans (by rw [hd, decodeOp_of_opOf_some hw ho])

/-- Settles O1: both writes have the low byte of the command's own bus write. -/
theorem decodeEncodeRoundTrip : Obligations.DecodeEncodeRoundTrip := fun _ hw =>
  ⟨decodeWrite_of_lowByte_encode hw rfl, fun hi => decodeWrite_of_lowByte_encode hw (lowByte_append hi _)⟩

/-- Every OP decodes to a command of the block that has it: the nine of the opcode map each to its own, every other one
to its illegal command. -/
theorem decodeOp_spec (op : Byte) : (decodeOp op).wellFormed = true ∧ opOf (decodeOp op) = some op := by
  by_cases h : op ∈ opcodeMap
  · have mapped : ∀ op ∈ opcodeMap, (decodeOp op).wellFormed = true ∧ opOf (decodeOp op) = some op := by decide
    exact mapped op h
  · rw [decodeOp_of_notMem_opcodeMap h]
    exact ⟨by simpa [Instr.wellFormed] using h, rfl⟩

/-- Settles O2: a command with an OP is sent by the CMD write of that OP. -/
theorem everyOpDecodesToItself : Obligations.EveryOpDecodesToItself := fun op =>
  have ⟨hw, ho⟩ := decodeOp_spec op
  ⟨hw, ho, encode_of_opOf_some ho⟩

/-- Settles O3, by evaluating the decoder on the thirteen words. -/
theorem specWordsDecode : Obligations.SpecWordsDecode := by
  unfold Obligations.SpecWordsDecode
  decide

end Sys2Proof

namespace Sys2Proof.Machine

/-! ### The CRC_DIN write (30_encoding.md R55, 40_crc.md R72) -/

/-- A write that the bus accepts at CRC_DIN is the command CRC_BYTE; every other accepted one is `step_write`'s. -/
theorem step_write_crcDin {s : State} {a w : Nat} {d : Word} {rest : List Input}
    (h : s.inputs = .write (s.params.base + a) w d :: rest)
    (hb : busTarget s.params a w .write = .ok (.reg .crcDin)) :
    step s = exec (.crcByte (lowByte d)) s.popInput := by
  simp [step, nextTurn, h, hostWriteTurn, hb, decodeDin]

/-- Settles O5: the bus accepts a 32-bit write at offset 0x00C, which is CRC_DIN's and not RO. -/
theorem stepRunsCrcByteWrite : Obligations.StepRunsCrcByteWrite := fun s _ _ h =>
  step_write_crcDin h (busTarget_register s.params (by decide) rfl fun _ => rfl)

/-! ### Character classes (30_encoding.md R59, R61) -/

section
variable {b : Byte}

theorem inRange_iff {lo hi : Nat} : inRange lo hi b = true ↔ lo ≤ b.toNat ∧ b.toNat ≤ hi := by
  simp [inRange]

theorem beq_byte_iff {c : Byte} : (b == c) = true ↔ b.toNat = c.toNat := by
  rw [beq_iff_eq, BitVec.toNat_inj]

theorem bne_byte_iff {c : Byte} : (b != c) = true ↔ b.toNat ≠ c.toNat := by
  rw [bne_iff_ne, BitVec.toNat_ne]

theorem isDigit_iff : isDigit b = true ↔ 0x30 ≤ b.toNat ∧ b.toNat ≤ 0x39 := inRange_iff

theorem isHex_iff : isHex b = true ↔ (0x30 ≤ b.toNat ∧ b.toNat ≤ 0x39) ∨ (0x41 ≤ b.toNat ∧ b.toNat ≤ 0x46) ∨
    (0x61 ≤ b.toNat ∧ b.toNat ≤ 0x66) := by
  simp only [isHex, Bool.or_eq_true, inRange_iff, or_assoc]

theorem isWordChar_iff : isWordChar b = true ↔ (0x30 ≤ b.toNat ∧ b.toNat ≤ 0x39) ∨
    (0x41 ≤ b.toNat ∧ b.toNat ≤ 0x5A) ∨ b.toNat = 0x5F ∨ (0x61 ≤ b.toNat ∧ b.toNat ≤ 0x7A) := by
  simp only [isWordChar, Bool.or_eq_true, inRange_iff, beq_byte_iff, or_assoc]
  rfl

theorem isSep_iff : isSep b = true ↔ b.toNat ∈ [0x2E, 0x09, 0x0A, 0x0B, 0x0C, 0x0D, 0x20] := by
  simp only [isSep, isWs, Bool.or_eq_true, inRange_iff, beq_byte_iff, List.mem_cons, List.not_mem_nil, or_false,
    BitVec.toNat_ofNat]
  omega

theorem hexval_of_decimal (h : 0x30 ≤ b.toNat ∧ b.toNat ≤ 0x39) : hexval b = b.toNat - 0x30 :=
  if_pos (inRange_iff.2 h)

theorem hexval_of_upper (h : 0x41 ≤ b.toNat ∧ b.toNat ≤ 0x46) : hexval b = b.toNat - 0x41 + 10 := by
  rw [hexval, if_neg (by rw [inRange_iff]; omega), if_pos (inRange_iff.2 h)]

theorem hexval_of_lower (h : 0x61 ≤ b.toNat ∧ b.toNat ≤ 0x66) : hexval b = b.toNat - 0x61 + 10 := by
  rw [hexval, if_neg (by rw [inRange_iff]; omega), if_neg (by rw [inRange_iff]; omega)]

end

/-- Settles O60, class by class and range by range. -/
theorem characterClasses : Obligations.CharacterClasses := fun _ =>
  ⟨isDigit_iff, isHex_iff, isWordChar_iff, bne_byte_iff, bne_byte_iff, isSep_iff,
    fun h1 h2 => ⟨hexval_of_decimal ⟨h1, h2⟩, rfl⟩, fun h1 h2 => hexval_of_upper ⟨h1, h2⟩,
    fun h1 h2 => hexval_of_lower ⟨h1, h2⟩⟩

end Sys2Proof.Machine
end

section
/-! PROOFS. The statements about the checksum (40_crc.md): the table, a step as eight shifts, and the three commands on
the accumulator. -/

namespace Sys2Proof.Machine

/-! ### The table (40_crc.md R66) -/

/-- `n` entries of the table by their construction, from T[i] on. -/
def crcTableFrom (i n : Nat) : List Half := (List.range' i n).map fun j => crcTable (BitVec.ofNat 8 j)

theorem crcTableFrom_append (i m n : Nat) :
    crcTableFrom i m ++ crcTableFrom (i + m) n = crcTableFrom i (m + n) := by
  simp [crcTableFrom, ← List.map_append]

theorem crcTable0_eq : crcTable0 = crcTableFrom 0x00 64 := by decide
theorem crcTable1_eq : crcTable1 = crcTableFrom 0x40 64 := by decide
theorem crcTable2_eq : crcTable2 = crcTableFrom 0x80 64 := by decide
theorem crcTable3_eq : crcTable3 = crcTableFrom 0xC0 64 := by decide

theorem crcTableListed_eq : crcTableListed = crcTableFrom 0 256 := by
  rw [crcTableListed, crcTable0_eq, crcTable1_eq, crcTable2_eq, crcTable3_eq, crcTableFrom_append 0 64,
    crcTableFrom_append 0 128, crcTableFrom_append 0 192]

/-- Settles O15: each of the four listed parts evaluates to its 64 entries, and the parts follow on. -/
theorem crcTableAsListed : Obligations.CrcTableAsListed := by
  unfold Obligations.CrcTableAsListed
  rw [crcTableListed_eq, crcTableFrom]
  exact ⟨by simp, fun i => by simp⟩

/-! ### A table step as eight shifts (40_crc.md R65, R67) -/

/-- Where no set bit is shifted out, the polynomial never comes in. -/
theorem crcShifts_of_low_clear {n : Nat} {c : Half} (h : ∀ i < n, c.getLsbD i = false) :
    crcShifts n c = c >>> n := by
  induction n generalizing c with
  | zero => exact (BitVec.ushiftRight_zero c).symm
  | succ n ih =>
    have hshift : crcShift c = c >>> 1 := by
      rw [crcShift, h 0 (by omega)]
      rfl
    have hlow : ∀ i < n, (c >>> 1).getLsbD i = false := fun i hi => by
      rw [BitVec.getLsbD_ushiftRight]
      exact h (1 + i) (by omega)
    rw [crcShifts, hshift, ih hlow, ← BitVec.shiftRight_add, Nat.add_comm]

/-- A byte XORed in does not reach what eight shifts move down. -/
theorem xor_byte_ushiftRight_eight (c : Half) (b : Byte) : (c ^^^ b.setWidth 16) >>> 8 = c >>> 8 := by
  have hb : (b.setWidth 16 : Half) >>> 8 = 0#16 := by
    ext i hi
    simp
  rw [BitVec.ushiftRight_xor_distrib, hb, BitVec.xor_zero]

theorem xor_loByte_low_clear (x : Half) :
    ∀ i < 8, (x ^^^ (loByte x).setWidth 16).getLsbD i = false := fun i hi => by
  simp [loByte, hi, show i < 16 by omega]

/-- Eight shifts move the high byte down and look the low byte up in the table: the shift is linear, so the two bytes
can go through it apart. -/
theorem crcShifts_eight (x : Half) : crcShifts 8 x = x >>> 8 ^^^ crcTable (loByte x) :=
  calc crcShifts 8 x = crcShifts 8 (x ^^^ (loByte x).setWidth 16 ^^^ (loByte x).setWidth 16) := by
        rw [BitVec.xor_assoc, BitVec.xor_self, BitVec.xor_zero]
    _ = (x ^^^ (loByte x).setWidth 16) >>> 8 ^^^ crcShifts 8 ((loByte x).setWidth 16) := by
        rw [crcShifts_xor, crcShifts_of_low_clear (xor_loByte_low_clear x)]
    _ = x >>> 8 ^^^ crcTable (loByte x) := by rw [xor_byte_ushiftRight_eight, crcTable]

/-- Settles O16: the table step is what eight shifts give for the accumulator with the byte XORed in. -/
theorem crcStepIsBitSerial : Obligations.CrcStepIsBitSerial := fun c b => by
  rw [crcShifts_eight, xor_byte_ushiftRight_eight]
  rfl

/-! ### Issuing a command while one is pending (70_reset_and_hazards.md R114) -/

theorem writeTarget_busy {a : Nat} {t : Target} {d : Word} {s : State} {op : Byte} (he : s.eng = .busy op) :
    writeTarget a t d s = .fault (.hazardBusy a .write) := by
  simp [writeTarget, hazard, State.busy, he, Eng.isBusy]

/-- Every OP issues what it decodes to: the CMD write's hazard does not look at the OP. -/
theorem issuedBy_decodeOp (op : Byte) : IssuedBy op (decodeOp op) where
  decodes := rfl
  hazard s d pending rest _ he h := by
    have hb : busTarget s.params 0x000 4 .write = .ok (.reg .cmd) :=
      busTarget_register s.params (by decide) rfl fun _ => rfl
    have he' : s.popInput.eng = .busy pending := he
    rw [step_write h hb (by decide), writeTarget_busy he']

/-! ### CRC_INIT and CRC_BYTE (40_crc.md R71, R72) -/

/-- Settles O17. -/
theorem crcInitResult : Obligations.CrcInitResult := ⟨issuedBy_decodeOp 0x01#8, fun _ => rfl⟩

theorem exec_crcByte_idle {s : State} (b : Byte) (he : s.eng = .idle) :
    exec (.crcByte b) s = .next { s with acc := crcStep s.acc b } := by
  simp [exec, execCrcByte, he]

theorem exec_crcByte_busy {s : State} {op : Byte} (b : Byte) (he : s.eng = .busy op) :
    exec (.crcByte b) s = .fault (.hazardBusy 0x00C .write) := by
  simp [exec, execCrcByte, he, dinOffset]

/-- Settles O18: the host write runs the command of its low byte. -/
theorem crcByteResult : Obligations.CrcByteResult := by
  refine fun s => ⟨fun b => ⟨exec_crcByte_idle b, fun _ => exec_crcByte_busy b⟩, fun d rest h => ?_⟩
  rw [stepRunsCrcByteWrite s d rest h, popInput_cons h]
  exact ⟨fun he => exec_crcByte_idle _ he, fun _ he => exec_crcByte_busy _ he⟩

/-! ### The span operand (40_crc.md R73, 42_parser.md R91) -/

section
variable {s : State} (k : List Byte → Outcome)

theorem withSpanOperand_rxOverflow (h : s.params.rxCap.toNat < s.rxLen.toNat) :
    withSpanOperand s k = .next (s.finish .rxOverflow) :=
  if_pos h

theorem withSpanOperand_spanRange (h1 : s.rxLen.toNat ≤ s.params.rxCap.toNat)
    (h2 : s.rxLen.toNat < s.span.off.toNat + s.span.len.toNat) :
    withSpanOperand s k = .next (s.finish .spanRange) := by
  rw [withSpanOperand, if_neg (by omega), if_pos h2]

theorem withSpanOperand_bytes {bs : List Byte} (h1 : s.rxLen.toNat ≤ s.params.rxCap.toNat)
    (h2 : s.span.off.toNat + s.span.len.toNat ≤ s.rxLen.toNat) (hr : s.rxSpan s.span = .ok bs) :
    withSpanOperand s k = k bs := by
  rw [withSpanOperand_inside k h1 h2, hr, withBytes_ok]

theorem withSpanOperand_unwritten {f : Fault} (h1 : s.rxLen.toNat ≤ s.params.rxCap.toNat)
    (h2 : s.span.off.toNat + s.span.len.toNat ≤ s.rxLen.toNat) (hr : s.rxSpan s.span = .error f) :
    withSpanOperand s k = .fault f := by
  rw [withSpanOperand_inside k h1 h2, hr, withBytes_error]

end

/-! ### CRC_RX (40_crc.md R70, R73) -/

/-- Settles O19, end by end of the span operand. -/
theorem crcRxResult : Obligations.CrcRxResult :=
  ⟨issuedBy_decodeOp 0x02#8, fun _ =>
    ⟨withSpanOperand_rxOverflow _, withSpanOperand_spanRange _, fun h1 h2 =>
      ⟨fun _ => withSpanOperand_bytes _ h1 h2, fun _ => withSpanOperand_unwritten _ h1 h2⟩⟩⟩

/-- A CRC_RX that completes with OK went over the bytes of a span inside the chunk. -/
theorem exec_crcRx_ok {s t : State} (h : exec .crcRx s = .next t) (hok : t.result = .ok) :
    s.rxLen.toNat ≤ s.params.rxCap.toNat ∧ s.span.off.toNat + s.span.len.toNat ≤ s.rxLen.toNat ∧
    ∃ bs, s.rxSpan s.span = .ok bs ∧ t = State.finish { s with acc := crcFold s.acc bs } .ok := by
  rcases withSpanOperand_next h with rfl | rfl | ⟨h1, h2, bs, hr, hk⟩
  · cases hok
  · cases hok
  · cases hk
    exact ⟨h1, h2, bs, hr, rfl⟩

/-- A byte string that reads, read in two pieces. -/
theorem Memory.readBytes_split {buf : Buffer} {m : Memory} {off n k : Nat} {bs : List Byte}
    (h : Memory.readBytes buf m off (n + k) = .ok bs) :
    ∃ xs ys, Memory.readBytes buf m off n = .ok xs ∧ Memory.readBytes buf m (off + n) k = .ok ys ∧
      bs = xs ++ ys := by
  have hl : (bs.drop n).length ≤ k := by
    rw [List.length_drop, Memory.readBytes_length h]
    omega
  have hy := Memory.readBytes_sub h n k le_rfl
  rw [List.take_of_length_le hl] at hy
  exact ⟨bs.take n, bs.drop n, Memory.readBytes_sub h 0 n (by omega), hy, (List.take_append_drop n bs).symm⟩

/-- Settles O20: both pieces lie inside the chunk and read as the pieces of the whole span, and the fold over them is
the fold over the whole. -/
theorem crcRxStreams : Obligations.CrcRxStreams := by
  intro s t o n k hsum h hok
  have hnk : (n + k).toNat = n.toNat + k.toNat := BitVec.toNat_add_of_lt (by omega)
  have hon : (o + n).toNat = o.toNat + n.toNat := BitVec.toNat_add_of_lt (by omega)
  obtain ⟨fits, inside, bs, hr, rfl⟩ := exec_crcRx_ok h hok
  simp only [State.rxSpan, State.rxs, hnk] at fits inside hr
  obtain ⟨xs, ys, hx, hy, rfl⟩ := Memory.readBytes_split hr
  refine ⟨_, withSpanOperand_bytes _ fits ?_ hx, ?_⟩
  · dsimp only
    omega
  · rw [← hon] at hy
    rw [crcFold_append]
    refine withSpanOperand_bytes _ fits ?_ hy
    simp only [State.finish_rxLen, hon]
    omega

end Sys2Proof.Machine
end

section
/-! PROOFS. The statements about the frame codec (41_frame_codec.md): DECODE, ENCODE and BUILD_ACK, what the two that
send leave unchanged, and the size of an acknowledgment. -/

namespace Sys2Proof.Machine

/-! ### What DECODE checks and reports (30_encoding.md R58, R59, 41_frame_codec.md R74) -/

theorem byteAt_eq_iff {f : List Byte} {i : Nat} {b : Byte} (hi : i < f.length) :
    byteAt f i = b ↔ f[i]? = some b := by
  simp [byteAt, hi]

theorem byteAt_of_getElem? {f : List Byte} {i : Nat} {b : Byte} (h : f[i]? = some b) : byteAt f i = b := by
  simp [byteAt, h]

theorem isFrame_iff (f : List Byte) :
    isFrame f = true ↔ 8 ≤ f.length ∧ f[0]? = some 0x0A#8 ∧ f[f.length - 1]? = some 0x0D#8 := by
  simp only [isFrame, Bool.and_eq_true, decide_eq_true_eq, beq_iff_eq, and_assoc]
  refine and_congr_right fun hl => ?_
  rw [byteAt_eq_iff (by omega), byteAt_eq_iff (by omega)]

/-- One byte of the length field that is no HEX byte is enough for DECODE to reject it. -/
theorem lengthFieldOk_eq_false {f : List Byte} {i : Nat} {b : Byte} (h3 : 3 ≤ i) (h7 : i < 7)
    (hb : f[i]? = some b) (hx : isHex b = false) : lengthFieldOk f = false := by
  have hi : isHex (byteAt f i) = false := by rw [byteAt_of_getElem? hb, hx]
  unfold lengthFieldOk
  interval_cases i <;> simp [hi]

theorem decodeFrame_notAFrame {f : List Byte} (h : isFrame f = false) : decodeFrame f = .error .notAFrame := by
  simp [decodeFrame, h]

theorem decodeFrame_badLengthField {f : List Byte} (h : isFrame f = true) (hl : lengthFieldOk f = false) :
    decodeFrame f = .error .badLengthField := by
  simp [decodeFrame, h, hl]

theorem decodeFrame_ok_iff {f : List Byte} {regs : DecodeRegs} :
    decodeFrame f = .ok regs ↔ isFrame f = true ∧ lengthFieldOk f = true ∧ regs = frameRegs f := by
  unfold decodeFrame
  cases isFrame f with
  | false => simp
  | true =>
    cases lengthFieldOk f with
    | false => simp
    | true => simp [eq_comm]

/-- An inbound frame by its fields (30_encoding.md R58). -/
def inboundFrame (c1 c0 h0 h1 h2 h3 : Byte) (p : List Byte) : List Byte :=
  [0x0A#8, c1, c0, h0, h1, h2, h3] ++ p ++ [0x0D#8]

section
variable (c1 c0 h0 h1 h2 h3 : Byte) (p : List Byte)

@[simp] theorem inboundFrame_length : (inboundFrame c1 c0 h0 h1 h2 h3 p).length = p.length + 8 := by
  simp [inboundFrame]

@[simp] theorem isFrame_inboundFrame : isFrame (inboundFrame c1 c0 h0 h1 h2 h3 p) = true := by
  rw [isFrame_iff, inboundFrame_length]
  refine ⟨by omega, rfl, ?_⟩
  rw [inboundFrame, List.getElem?_append_right (by simp)]
  simp

@[simp] theorem framePayload_inboundFrame : framePayload (inboundFrame c1 c0 h0 h1 h2 h3 p) = p := by
  rw [framePayload, inboundFrame_length, show p.length + 8 - 1 = 7 + p.length by omega]
  exact slice_part [0x0A#8, c1, c0, h0, h1, h2, h3] p [0x0D#8]

@[simp] theorem lengthFieldOk_inboundFrame : lengthFieldOk (inboundFrame c1 c0 h0 h1 h2 h3 p) =
    (isHex h0 && isHex h1 && isHex h2 && isHex h3) := rfl

@[simp] theorem frameDecl_inboundFrame : frameDecl (inboundFrame c1 c0 h0 h1 h2 h3 p) =
    { crc := be16 c1 c0, len := BitVec.ofNat 16 (hex4 h0 h1 h2 h3) } := rfl

@[simp] theorem frameComp_inboundFrame : frameComp (inboundFrame c1 c0 h0 h1 h2 h3 p) =
    { crc := crc16 p, len := BitVec.ofNat 16 p.length } := by
  simp [frameComp]

end

theorem hexval_lt {b : Byte} (h : isHex b = true) : hexval b < 16 := by
  rcases isHex_iff.1 h with h | h | h
  · rw [hexval_of_decimal h]
    omega
  · rw [hexval_of_upper h]
    omega
  · rw [hexval_of_lower h]
    omega

/-- LEN_MATCH compares the lengths themselves: neither passes 16 bits. -/
theorem lenEq_ofNat {c d : Half} {m n : Nat} (hm : m < 65536) (hn : n < 65536) :
    CrcLen.lenEq ⟨c, BitVec.ofNat 16 m⟩ ⟨d, BitVec.ofNat 16 n⟩ = decide (m = n) := by
  simp only [CrcLen.lenEq, Bool.beq_eq_decide_eq, ← BitVec.toNat_inj, BitVec.toNat_ofNat,
    Nat.mod_eq_of_lt (show m < 2 ^ 16 from hm), Nat.mod_eq_of_lt (show n < 2 ^ 16 from hn)]

/-- What DECODE reports of an inbound frame. -/
theorem frameRegs_inboundFrame {c1 c0 h0 h1 h2 h3 : Byte} {p : List Byte} (hp : p.length < 65536)
    (hl : hex4 h0 h1 h2 h3 < 65536) : frameRegs (inboundFrame c1 c0 h0 h1 h2 h3 p) =
      { frameOk := true
        crcMatch := decide (crc16 p = be16 c1 c0)
        lenMatch := decide (p.length = hex4 h0 h1 h2 h3)
        decl := { crc := be16 c1 c0, len := BitVec.ofNat 16 (hex4 h0 h1 h2 h3) }
        comp := { crc := crc16 p, len := BitVec.ofNat 16 p.length } } := by
  rw [frameRegs, frameDecl_inboundFrame, frameComp_inboundFrame, lenEq_ofNat hp hl]
  rfl

section
variable {s : State} {n : Nat} {c1 c0 h0 h1 h2 h3 : Byte} {p : List Byte}
  (h : s.rxs 0 n = .ok (inboundFrame c1 c0 h0 h1 h2 h3 p))
include h

theorem length_of_rxs_inboundFrame : p.length + 8 = n := by
  rw [← Memory.readBytes_length h, inboundFrame_length]

/-- The payload of an inbound frame stands at `RX[7..)` (41_frame_codec.md R76). -/
theorem rxs_payload_of_inboundFrame : s.rxs 7 p.length = .ok p := by
  have hl := length_of_rxs_inboundFrame h
  have hsub := Memory.readBytes_sub h 7 p.length (by omega)
  simpa [inboundFrame, State.rxs] using hsub

end

/-! ### DECODE (41_frame_codec.md R74) -/

section
variable {s : State}

theorem exec_decode_rxOverflow (h : s.params.rxCap.toNat < s.rxLen.toNat) :
    exec .decode s = .next (s.clearDecode.finish .rxOverflow) :=
  if_pos h

theorem exec_decode_unwritten {f : Fault} (h : s.rxLen.toNat ≤ s.params.rxCap.toNat)
    (hr : s.rxs 0 s.rxLen.toNat = .error f) : exec .decode s = .fault f := by
  rw [exec, execDecode, if_neg (by omega), hr, withBytes_error]

theorem exec_decode_rejected {f : List Byte} {c : ResultCode} (h : s.rxLen.toNat ≤ s.params.rxCap.toNat)
    (hr : s.rxs 0 s.rxLen.toNat = .ok f) (hd : decodeFrame f = .error c) :
    exec .decode s = .next (s.clearDecode.finish c) := by
  rw [exec, execDecode, if_neg (by omega), hr, withBytes_ok, hd]

theorem exec_decode_accepted {f : List Byte} {regs : DecodeRegs} (h : s.rxLen.toNat ≤ s.params.rxCap.toNat)
    (hr : s.rxs 0 s.rxLen.toNat = .ok f) (hd : decodeFrame f = .ok regs) :
    exec .decode s = .next (State.finish { s.clearParse with dec := regs } .ok) := by
  rw [exec, execDecode, if_neg (by omega), hr, withBytes_ok, hd]

end

/-- Settles O22: a chunk with the layout of an inbound frame passes both checks, and its length and the four digits'
value fit the 16 bits that LEN_MATCH compares. -/
theorem decodeAccepts : Obligations.DecodeAccepts := by
  intro s c1 c0 h0 h1 h2 h3 p fits hr x0 x1 x2 x3
  change s.rxs 0 _ = .ok (inboundFrame c1 c0 h0 h1 h2 h3 p) at hr
  have hlen := length_of_rxs_inboundFrame hr
  have hp : p.length < 65536 := by
    have := s.rxLen.isLt
    omega
  have hl : hex4 h0 h1 h2 h3 < 65536 := by
    have v0 := hexval_lt x0
    have v1 := hexval_lt x1
    have v2 := hexval_lt x2
    have v3 := hexval_lt x3
    rw [hex4]
    omega
  have hd : decodeFrame (inboundFrame c1 c0 h0 h1 h2 h3 p) = .ok (frameRegs (inboundFrame c1 c0 h0 h1 h2 h3 p)) :=
    decodeFrame_ok_iff.2 ⟨isFrame_inboundFrame .., by simp [x0, x1, x2, x3], rfl⟩
  rw [exec_decode_accepted fits hr hd, frameRegs_inboundFrame hp hl]
  rfl

/-- Settles O23: each set of premises is the negation of one of DECODE's checks. -/
theorem decodeRejects : Obligations.DecodeRejects := by
  refine ⟨issuedBy_decodeOp 0x10#8, fun s => ⟨exec_decode_rxOverflow, fun fits =>
    ⟨fun f => exec_decode_unwritten fits, fun f hr => ⟨fun h => ?_, fun hl hs he hx => ?_⟩⟩⟩⟩
  · refine exec_decode_rejected fits hr (decodeFrame_notAFrame ?_)
    rw [← Bool.not_eq_true, isFrame_iff]
    rintro ⟨hl, hs, he⟩
    rcases h with h | h | h
    · omega
    · exact h hs
    · exact h he
  · obtain ⟨i, b, h3, h7, hb, hx⟩ := hx
    exact exec_decode_rejected fits hr
      (decodeFrame_badLengthField ((isFrame_iff f).2 ⟨hl, hs, he⟩) (lengthFieldOk_eq_false h3 h7 hb hx))

/-! ### Framing a payload (30_encoding.md R60, 41_frame_codec.md R78, R80) -/

/-- The state after a successful ENCODE or BUILD_ACK: the frame of the payload `p`, which stands in `tx`. -/
def State.framed (s : State) (tx : Memory) (p : List Byte) : State :=
  State.finish { s with
    txbuf := writeEnvelope tx p
    txPlen := BitVec.ofNat 16 p.length
    txLen := BitVec.ofNat 16 (p.length + 6) } .ok

section
variable (s : State) {tx : Memory} {p : List Byte}

theorem State.framed_txbuf_read (j : Nat) : (s.framed tx p).txbuf.read j =
    if j = 5 + p.length then some 0x0D#8 else if j < 5 then (frameHeader p)[j]? else tx.read j :=
  read_writeEnvelope tx p j

theorem State.framed_txbuf_read_header {j : Nat} (hj : j < 5) :
    (s.framed tx p).txbuf.read j = (frameHeader p)[j]? := by
  rw [State.framed_txbuf_read, if_neg (by omega), if_pos hj]

theorem State.framed_txbuf_read_end : (s.framed tx p).txbuf.read (5 + p.length) = some 0x0D#8 := by
  rw [State.framed_txbuf_read, if_pos rfl]

theorem State.framed_txs_payload (h : Memory.readBytes .tx tx 5 p.length = .ok p) :
    (s.framed tx p).txs 5 p.length = .ok p :=
  (readBytes_payload_writeEnvelope tx p).trans h

theorem State.framed_txs (h : Memory.readBytes .tx tx 5 p.length = .ok p) :
    (s.framed tx p).txs 0 (p.length + 6) = .ok (outboundFrame p) :=
  readBytes_writeEnvelope tx p h

/-- Nothing past the frame changes. -/
theorem State.framed_txbuf_read_past {j : Nat} (hj : p.length + 6 ≤ j) :
    (s.framed tx p).txbuf.read j = tx.read j := by
  rw [State.framed_txbuf_read, if_neg (by omega), if_neg (by omega)]

/-- Framing shows at the offsets of TXBUF's window alone. -/
theorem State.framed_byteAtOffset {a : Nat}
    (h : ∀ i, a = 0x20000 + i → (s.framed tx p).txbuf.read i = s.txbuf.read i) :
    (s.framed tx p).byteAtOffset a = s.byteAtOffset a := by
  refine byteAtOffset_congr s (s.framed tx p) rfl a fun b i ha => ?_
  cases b with
  | rx => rfl
  | tx => exact h i ha
  | nb => rfl

variable {s} (fits : p.length + 6 ≤ s.params.txCap.toNat)
include fits

theorem State.framed_txPlen_toNat : (s.framed tx p).txPlen.toNat = p.length :=
  toNat_ofNat_of_le_cap (cap := s.params.txCap) (by omega)

theorem State.framed_txLen_toNat : (s.framed tx p).txLen.toNat = p.length + 6 :=
  toNat_ofNat_of_le_cap fits

end

/-- A 16-bit register that measures a byte string holds its length. -/
theorem ofNat_length_of_toNat {v : Half} {p : List Byte} (h : p.length = v.toNat) :
    BitVec.ofNat 16 p.length = v := by
  rw [h, BitVec.ofNat_toNat, BitVec.setWidth_eq]

/-! ### ENCODE (41_frame_codec.md R78, R79) -/

section
variable {s : State}

theorem exec_encode_txOverflow (h : s.params.txCap.toNat < s.txPlen.toNat + 6) :
    exec .encode s = .next (s.clearTxLen.finish .txOverflow) :=
  if_pos h

theorem exec_encode_unwritten {f : Fault} (h : s.txPlen.toNat + 6 ≤ s.params.txCap.toNat)
    (hr : s.txs 5 s.txPlen.toNat = .error f) : exec .encode s = .fault f := by
  rw [exec, execEncode, if_neg (by omega), hr, withBytes_error]

theorem exec_encode_framed {p : List Byte} (h : s.txPlen.toNat + 6 ≤ s.params.txCap.toNat)
    (hr : s.txs 5 s.txPlen.toNat = .ok p) : exec .encode s = .next (s.framed s.txbuf p) := by
  have hl : p.length = s.txPlen.toNat := Memory.readBytes_length hr
  rw [exec, execEncode, if_neg (by omega), hr, withBytes_ok, State.framed, ofNat_length_of_toNat hl, hl]

/-- ENCODE ends in TX_OVERFLOW, or frames the payload that stands in TXBUF. -/
theorem exec_encode_next {t : State} (h : exec .encode s = .next t) :
    t = s.clearTxLen.finish .txOverflow ∨
    ∃ p, s.txPlen.toNat + 6 ≤ s.params.txCap.toNat ∧ s.txs 5 s.txPlen.toNat = .ok p ∧
      t = s.framed s.txbuf p := by
  by_cases hc : s.params.txCap.toNat < s.txPlen.toNat + 6
  · rw [exec_encode_txOverflow hc] at h
    cases h
    exact .inl rfl
  · have fits : s.txPlen.toNat + 6 ≤ s.params.txCap.toNat := by omega
    cases hr : s.txs 5 s.txPlen.toNat with
    | error f => simp [exec_encode_unwritten fits hr] at h
    | ok p =>
      rw [exec_encode_framed fits hr] at h
      cases h
      exact .inr ⟨p, fits, rfl, rfl⟩

end

/-- Settles O24: the payload already stands in its place, so the envelope makes the frame. -/
theorem encodeResult : Obligations.EncodeResult := by
  refine ⟨issuedBy_decodeOp 0x11#8, fun s => ⟨exec_encode_txOverflow, fun fits =>
    ⟨fun f => exec_encode_unwritten fits, fun p hr => ⟨_, exec_encode_framed fits hr, ?_⟩⟩⟩⟩
  have hl : p.length = s.txPlen.toNat := Memory.readBytes_length hr
  have hplen := ofNat_length_of_toNat hl
  rw [← hl] at fits hr ⊢
  refine ⟨?_, State.framed_txLen_toNat fits, ?_, fun j => State.framed_txbuf_read_past s⟩
  · rw [State.framed, hplen]
    rfl
  · rw [State.framed_txs s hr, outboundFrame, frameHeader, hplen]
    rfl

/-- The two bytes of a 16-bit value in wire order give the value back (20_memory.md R48). -/
theorem hiByte_loByte_toNat (v : Half) : (hiByte v).toNat * 256 + (loByte v).toNat = v.toNat := by
  have := v.isLt
  simp only [hiByte, loByte, BitVec.extractLsb'_toNat, Nat.shiftRight_eq_div_pow]
  omega

theorem be16_hiByte_loByte (v : Half) : be16 (hiByte v) (loByte v) = v := by
  rw [be16, hiByte_loByte_toNat, BitVec.ofNat_toNat, BitVec.setWidth_eq]

/-- Settles O25: both frames carry their checksum as the high byte and then the low byte. -/
theorem frameRoundTrip : Obligations.FrameRoundTrip := by
  refine ⟨fun s t h hok => ?_, fun s h0 h1 h2 h3 p fits hr x0 x1 x2 x3 hlen => ?_⟩
  · rcases exec_encode_next h with rfl | ⟨p, -, hr, rfl⟩
    · cases hok
    · have hl : p.length = s.txPlen.toNat := Memory.readBytes_length hr
      have hplen := ofNat_length_of_toNat hl
      have header := fun j => State.framed_txbuf_read_header s (tx := s.txbuf) (p := p) (j := j)
      rw [← hl] at hr ⊢
      refine ⟨p, _, _, _, _, hr, State.framed_txs_payload s hr, header 0 (by decide), header 1 (by decide),
        header 2 (by decide), header 3 (by decide), header 4 (by decide), State.framed_txbuf_read_end s,
        hiByte_loByte_toNat _, ?_, rfl⟩
      rw [hiByte_loByte_toNat, hplen, hl]
  · have hp : (BitVec.ofNat 16 p.length).toNat = p.length := by
      have hlen := length_of_rxs_inboundFrame hr
      exact toNat_ofNat_of_le_cap (cap := s.rxLen) (by omega)
    refine ⟨_, decodeAccepts s _ _ h0 h1 h2 h3 p fits hr x0 x1 x2 x3, ?_, rfl, ?_, ?_⟩
    · simp only [hp]
      exact rxs_payload_of_inboundFrame hr
    · exact decide_eq_true (be16_hiByte_loByte (crc16 p)).symm
    · exact decide_eq_true hlen.symm

/-! ### BUILD_ACK (30_encoding.md R63, 41_frame_codec.md R80) -/

@[simp] theorem ackPayload_length (seq rcv line acct : List Byte) : (ackPayload seq rcv line acct).length =
    9 + seq.length + (if rcv.length > 0 then rcv.length + 1 else 0) + line.length + acct.length := by
  unfold ackPayload
  split <;> simp <;> omega

theorem sendAck_txOverflow {s : State} {a : List Byte} (h : s.params.txCap.toNat < a.length + 6) :
    sendAck s a = s.clearTxLen.finish .txOverflow :=
  if_pos h

theorem sendAck_framed {s : State} {a : List Byte} (h : a.length + 6 ≤ s.params.txCap.toNat) :
    sendAck s a = s.framed (s.txbuf.writeBytes 5 a) a :=
  if_neg (by omega)

/-- The four fields that an acknowledgment is composed of, as they stand in RXBUF. -/
structure State.AckFields (s : State) (seq rcv line acct : List Byte) : Prop where
  seq  : s.rxSpan s.prs.fSeq = .ok seq
  rcv  : s.rxSpan s.prs.fRcv = .ok rcv
  line : s.rxSpan s.prs.fLine = .ok line
  acct : s.rxSpan s.prs.fAcct = .ok acct

section
variable {s : State}

theorem exec_buildAck_noFrame (hd : s.dec.frameOk = false) :
    exec .buildAck s = .next (s.clearTxLen.finish .noFrame) := by
  simp [exec, execBuildAck, hd]

theorem exec_buildAck_notParsed (hd : s.dec.frameOk = true) (hp : s.prs.parsed = false) :
    exec .buildAck s = .next (s.clearTxLen.finish .notParsed) := by
  simp [exec, execBuildAck, hd, hp]

theorem exec_buildAck_sendAck {seq rcv line acct : List Byte} (hd : s.dec.frameOk = true)
    (hp : s.prs.parsed = true) (h : s.AckFields seq rcv line acct) :
    exec .buildAck s = .next (sendAck s (ackPayload seq rcv line acct)) := by
  simp [exec, execBuildAck, hd, hp, h.seq, h.rcv, h.line, h.acct]

/-- BUILD_ACK ends in a result code other than OK with TX_LEN cleared, or frames the acknowledgment of the parsed
fields. -/
theorem exec_buildAck_next {t : State} (h : exec .buildAck s = .next t) :
    (∃ c, c ≠ .ok ∧ t = s.clearTxLen.finish c) ∨
    ∃ seq rcv line acct, s.AckFields seq rcv line acct ∧
      t = s.framed (s.txbuf.writeBytes 5 (ackPayload seq rcv line acct)) (ackPayload seq rcv line acct) := by
  rw [exec, execBuildAck] at h
  split at h
  · cases h
    exact .inl ⟨.noFrame, by decide, rfl⟩
  · split at h
    · cases h
      exact .inl ⟨.notParsed, by decide, rfl⟩
    · obtain ⟨seq, hseq, h⟩ := withBytes_next h
      obtain ⟨rcv, hrcv, h⟩ := withBytes_next h
      obtain ⟨line, hline, h⟩ := withBytes_next h
      obtain ⟨acct, hacct, h⟩ := withBytes_next h
      cases h
      by_cases hc : s.params.txCap.toNat < (ackPayload seq rcv line acct).length + 6
      · exact .inl ⟨.txOverflow, by decide, sendAck_txOverflow hc⟩
      · exact .inr ⟨seq, rcv, line, acct, ⟨hseq, hrcv, hline, hacct⟩, sendAck_framed (by omega)⟩

end

/-- Settles O26: the payload is the model's, its receiver part being written where it is not empty. -/
theorem buildAckResult : Obligations.BuildAckResult := by
  refine ⟨issuedBy_decodeOp 0x12#8, fun s => ⟨exec_buildAck_noFrame, exec_buildAck_notParsed,
    fun seq rcv line acct a hd hp hseq hrcv hline hacct ha => ?_⟩⟩
  have hpay : a = ackPayload seq rcv line acct := by
    cases rcv <;> simp [ha, ackPayload]
  rw [exec_buildAck_sendAck hd hp ⟨hseq, hrcv, hline, hacct⟩, ← hpay]
  refine ⟨fun h => by rw [sendAck_txOverflow h]; rfl, fun fits => ⟨_, rfl, ?_⟩⟩
  rw [sendAck_framed fits]
  refine ⟨rfl, State.framed_txPlen_toNat fits, State.framed_txLen_toNat fits,
    State.framed_txs s (Memory.readBytes_writeBytes .tx s.txbuf 5 a), fun j hj => ?_⟩
  rw [State.framed_txbuf_read_past s hj, Memory.read_writeBytes, if_neg (by omega)]

/-! ### What BUILD_ACK does not read (41_frame_codec.md R81) -/

/-- A state with other match flags. -/
abbrev State.withFlags (s : State) (cm lm mt ts : Bool) : State :=
  { s with
    dec := { s.dec with crcMatch := cm, lenMatch := lm }
    prs := { s.prs with matched := mt, tsOk := ts } }

/-- An outcome with a change made to its next state, if it has one. -/
def mapNext (g : State → State) : Outcome → Outcome
  | .next t => .next (g t)
  | .fault f => .fault f
  | .refused r => .refused r

theorem mapNext_withBytes (g : State → State) (r : Except Fault (List Byte)) (k : List Byte → Outcome) :
    mapNext g (withBytes r k) = withBytes r fun bs => mapNext g (k bs) := by
  cases r <;> rfl

section
variable (s : State) (cm lm mt ts : Bool)

theorem sendAck_withFlags (a : List Byte) :
    sendAck (s.withFlags cm lm mt ts) a = (sendAck s a).withFlags cm lm mt ts := by
  unfold sendAck
  split <;> rfl

theorem exec_buildAck_withFlags : exec .buildAck (s.withFlags cm lm mt ts) =
    mapNext (fun t => t.withFlags cm lm mt ts) (exec .buildAck s) := by
  simp only [exec]
  unfold execBuildAck
  split
  · rfl
  · split
    · rfl
    · simp only [mapNext_withBytes, sendAck_withFlags]
      rfl

end

/-- Settles O27: neither the checks, nor the four fields read, nor the frame sent look at the flags. -/
theorem acknowledgmentIsUniform : Obligations.AcknowledgmentIsUniform := fun s cm lm mt ts =>
  have h := exec_buildAck_withFlags s cm lm mt ts
  ⟨fun _ ht => h.trans (congrArg (mapNext _) ht), fun _ hf => h.trans (congrArg (mapNext _) hf)⟩

/-! ### What ENCODE and BUILD_ACK leave unchanged -/

/-- Settles O47: ENCODE changes TXBUF by its envelope alone. -/
theorem frameEncode : Obligations.FrameEncode := by
  intro s t h
  rcases exec_encode_next h with rfl | ⟨p, -, hr, rfl⟩
  · exact ⟨rfl, fun _ _ _ => rfl, fun _ _ => rfl⟩
  · have hl : p.length = s.txPlen.toNat := Memory.readBytes_length hr
    refine ⟨?_, fun a h1 h2 => State.framed_byteAtOffset s fun i hi => ?_, fun hne => absurd rfl hne⟩
    · rw [State.framed, ofNat_length_of_toNat hl]
      rfl
    · rw [State.framed_txbuf_read, if_neg (by omega), if_neg (by omega)]

/-- Settles O48: BUILD_ACK changes TXBUF by the payload it composes and its envelope. -/
theorem frameBuildAck : Obligations.FrameBuildAck := by
  intro s t h
  rcases exec_buildAck_next h with ⟨c, hc, rfl⟩ | ⟨seq, rcv, line, acct, ⟨hseq, hrcv, hline, hacct⟩, rfl⟩
  · exact ⟨rfl, fun hok => absurd hok hc, fun _ => ⟨rfl, fun _ => rfl⟩⟩
  · refine ⟨rfl, fun _ => ⟨seq, rcv, line, acct, hseq, hrcv, hline, hacct, fun a ha =>
      State.framed_byteAtOffset s fun i hi => ?_⟩, fun hne => absurd rfl hne⟩
    rw [State.framed_txbuf_read_past s (by omega), Memory.read_writeBytes, if_neg (by omega)]

/-! ### The size of an acknowledgment (41_frame_codec.md R82) -/

@[simp] theorem ParseRegs.withTs_fSeq (r : ParseRegs) (o : Option TsFields) :
    (r.withTs o).fSeq = r.fSeq := by cases o <;> rfl

@[simp] theorem ParseRegs.withTs_fLine (r : ParseRegs) (o : Option TsFields) :
    (r.withTs o).fLine = r.fLine := by cases o <;> rfl

@[simp] theorem ParseRegs.withTs_fAcct (r : ParseRegs) (o : Option TsFields) :
    (r.withTs o).fAcct = r.fAcct := by cases o <;> rfl

section
variable (p : List Byte) (m : Match)

@[simp] theorem Match.regs_fSeq : (m.regs p).fSeq = Span.ofToken m.seq := ParseRegs.withTs_fSeq _ _

@[simp] theorem Match.regs_fRcv : (m.regs p).fRcv = Span.ofOption m.rcv := ParseRegs.withTs_fRcv _ _

@[simp] theorem Match.regs_fLine : (m.regs p).fLine = Span.ofToken m.line := ParseRegs.withTs_fLine _ _

@[simp] theorem Match.regs_fAcct : (m.regs p).fAcct = Span.ofToken m.acct := ParseRegs.withTs_fAcct _ _

@[simp] theorem Match.regs_matched : (m.regs p).matched = true := ParseRegs.withTs_matched _ _

end

/-- A token that lies inside a payload. -/
def Token.Inside (p : List Byte) (t : Token) : Prop := t.off + t.len ≤ p.length

theorem Token.Inside.bytes_length {p : List Byte} {t : Token} (h : t.Inside p) : (t.bytes p).length = t.len := by
  rw [Token.bytes, slice_length _ _ _ h, Nat.add_sub_cancel_left]

/-- The bytes of an optional field, none where its group did not take part. -/
def optionBytes (p : List Byte) (o : Option Token) : List Byte := (o.map (Token.bytes p)).getD []

/-- Where the fields of an acknowledgment stand in the payload they were matched in: between the three bytes or more of
the quoted id and the two or more of the message data with its bracket (30_encoding.md R62). -/
structure Match.AckInside (p : List Byte) (m : Match) : Prop where
  seq  : m.seq.Inside p
  rcv  : ∀ t, m.rcv = some t → t.Inside p
  line : m.line.Inside p
  acct : m.acct.Inside p
  size : (ackPayload (m.seq.bytes p) (optionBytes p m.rcv) (m.line.bytes p) (m.acct.bytes p)).length
    ≤ p.length + 1

/-- The receiver part of an acknowledgment is as long as the receiver group it was matched in. -/
theorem matchRcv_ack_length {p : List Byte} {i j : Nat} {o : Option Token} (hi : i ≤ p.length)
    (h : matchRcv p i = some (o, j)) : (∀ t, o = some t → t.Inside p) ∧
      (if (optionBytes p o).length > 0 then (optionBytes p o).length + 1 else 0) = j - i := by
  obtain ⟨hle, hj, -, some_eq, none_eq⟩ := matchRcv_some hi h
  cases o with
  | none => simp [optionBytes, none_eq rfl]
  | some t =>
    obtain ⟨rfl, class_bytes⟩ := some_eq t rfl
    have hpos := class_bytes.1.trans (Token.bytes_length_le p _)
    have inside : Token.Inside p ⟨i + 1, j - i - 1⟩ := by
      simp only [Token.Inside] at hpos ⊢
      omega
    have hl : (optionBytes p (some ⟨i + 1, j - i - 1⟩)).length = j - i - 1 := inside.bytes_length
    refine ⟨by rintro _ ⟨⟩; exact inside, ?_⟩
    simp only at hpos
    rw [hl, if_pos (by omega)]
    omega

theorem tryMatch_ackInside {p : List Byte} {i : Nat} {m : Match} (h : tryMatch p i = some m) :
    m.AckInside p := by
  obtain ⟨s, t, t', a, b, c, hid, hseq, hrcv, hline, hacct, hmdata, -⟩ := tryMatch_some h
  obtain ⟨-, -, -, id_class, id_eq⟩ := matchId_some hid
  obtain ⟨seq_eq, ht, t_le, -⟩ := matchSeq_some hseq
  obtain ⟨le_t', t'_le, -⟩ := matchRcv_some t_le hrcv
  obtain ⟨lt_a, a_le, -, line_class, line_eq⟩ := matchLine_some hline
  obtain ⟨lt_b, b_le, -, acct_class, acct_eq⟩ := matchAcct_some hacct
  obtain ⟨-, c_le, -, mdata_class, mdata_eq⟩ := matchMdata_some hmdata
  obtain ⟨rcv_inside, rcv_length⟩ := matchRcv_ack_length t_le hrcv
  have id_pos : 1 ≤ s - i - 2 := by simpa [id_eq] using id_class.1.trans (Token.bytes_length_le p _)
  have line_pos : 1 ≤ a - t' - 2 := by simpa [line_eq] using line_class.1.trans (Token.bytes_length_le p _)
  have mdata_pos : 1 ≤ c - b - 1 := by simpa [mdata_eq] using mdata_class.1.trans (Token.bytes_length_le p _)
  have seq_inside : m.seq.Inside p := by
    simp only [Token.Inside, seq_eq]
    omega
  have line_inside : m.line.Inside p := by
    simp only [Token.Inside, line_eq]
    omega
  have acct_inside : m.acct.Inside p := by
    simp only [Token.Inside, acct_eq]
    omega
  refine ⟨seq_inside, rcv_inside, line_inside, acct_inside, ?_⟩
  rw [ackPayload_length, rcv_length, seq_inside.bytes_length, line_inside.bytes_length, acct_inside.bytes_length,
    seq_eq, line_eq, acct_eq]
  dsimp only
  omega

/-- A decoded frame that is fresh fills the chunk: its payload is all but eight bytes of it. -/
theorem State.DecodeFresh.rxLen {s : State} (h : s.DecodeFresh) (hd : s.dec.frameOk = true) :
    s.rxLen.toNat ≤ s.params.rxCap.toNat ∧ s.dec.comp.len.toNat + 8 = s.rxLen.toNat := by
  obtain ⟨fits, f, hr, hf⟩ := h.2 hd
  obtain ⟨hframe, -, hregs⟩ := decodeFrame_ok_iff.1 hf
  have hlen : f.length = s.rxLen.toNat := Memory.readBytes_length hr
  have h8 := ((isFrame_iff f).1 hframe).1
  have hcomp : s.dec.comp.len.toNat = f.length - 8 := by
    rw [hregs]
    exact toNat_ofNat_of_le_cap (cap := s.rxLen) (by omega)
  exact ⟨fits, by omega⟩

section
variable {s : State} {p : List Byte} (hr : s.payload = .ok p) (hp : p.length + 8 < 65536)
include hr hp

/-- The register of a token inside the payload spans the token's bytes in RXBUF. -/
theorem State.rxSpan_ofToken {t : Token} (ht : t.Inside p) : s.rxSpan (Span.ofToken t) = .ok (t.bytes p) := by
  have hlen : p.length = s.dec.comp.len.toNat := Memory.readBytes_length hr
  unfold Token.Inside at ht
  have hoff : (Span.ofToken t).off.toNat = 7 + t.off := by
    simp only [Span.ofToken, BitVec.toNat_ofNat]
    omega
  have hn : (Span.ofToken t).len.toNat = t.len := by
    simp only [Span.ofToken, BitVec.toNat_ofNat]
    omega
  rw [State.rxSpan, hoff, hn, Token.bytes, slice, Nat.add_sub_cancel_left]
  exact Memory.readBytes_sub hr t.off t.len (by omega)

theorem State.rxSpan_ofOption {o : Option Token} (ho : ∀ t, o = some t → t.Inside p) :
    s.rxSpan (Span.ofOption o) = .ok (optionBytes p o) := by
  cases o with
  | none => rfl
  | some t => exact State.rxSpan_ofToken hr hp (ho t rfl)

/-- The fields of a match read from RXBUF as the bytes they were matched on. -/
theorem State.ackFields_of_match {m : Match} (h : m.AckInside p) (hprs : s.prs = m.regs p) :
    s.AckFields (m.seq.bytes p) (optionBytes p m.rcv) (m.line.bytes p) (m.acct.bytes p) := by
  constructor
  · rw [hprs, Match.regs_fSeq, State.rxSpan_ofToken hr hp h.seq]
  · rw [hprs, Match.regs_fRcv, State.rxSpan_ofOption hr hp h.rcv]
  · rw [hprs, Match.regs_fLine, State.rxSpan_ofToken hr hp h.line]
  · rw [hprs, Match.regs_fAcct, State.rxSpan_ofToken hr hp h.acct]

end

/-- The cleared fields read as nothing. -/
theorem State.ackFields_of_mismatch {s : State} (hprs : s.prs = { ParseRegs.cleared with parsed := true }) :
    s.AckFields [] [] [] [] := by
  constructor <;> rw [hprs] <;> rfl

/-- The fields that BUILD_ACK reads of a fresh parse are written, and its acknowledgment is at most one byte longer than
the payload of a match, and nine bytes long where there is none. -/
theorem State.Fresh.ackFields {s : State} (h : s.Fresh) (hd : s.dec.frameOk = true)
    (hp : s.prs.parsed = true) : ∃ seq rcv line acct, s.AckFields seq rcv line acct ∧
      (s.prs.matched = true → (ackPayload seq rcv line acct).length ≤ s.dec.comp.len.toNat + 1) ∧
      (s.prs.matched = false → (ackPayload seq rcv line acct).length = 9) := by
  obtain ⟨-, p, hr, hprs⟩ := h.2.2 hp
  have hlen : p.length = s.dec.comp.len.toNat := Memory.readBytes_length hr
  have hrx := (h.1.rxLen hd).2
  have hlt := s.rxLen.isLt
  unfold parsePayload at hprs
  split at hprs
  · exact ⟨_, _, _, _, State.ackFields_of_mismatch hprs, by simp [hprs, ParseRegs.cleared], fun _ => rfl⟩
  · rename_i m hm
    obtain ⟨i, hi⟩ := grammarMatch_some hm
    have inside := tryMatch_ackInside hi
    exact ⟨_, _, _, _, State.ackFields_of_match hr (by omega) inside hprs, fun _ => hlen ▸ inside.size,
      by simp [hprs]⟩

/-- Settles O59: the acknowledgment of a match is at most one byte longer than the payload, and its frame has two bytes
less round it than the inbound one. -/
theorem ackNeverOverflows : Obligations.AckNeverOverflows := by
  rintro s ⟨-, -, htx⟩ hs hd hp
  obtain ⟨seq, rcv, line, acct, fields, hmatch, hmismatch⟩ := hs.ackFields hd hp
  obtain ⟨fits, hrx⟩ := hs.1.rxLen hd
  refine ⟨_, exec_buildAck_sendAck hd hp fields, ?_⟩
  generalize ackPayload seq rcv line acct = a at hmatch hmismatch ⊢
  by_cases hc : a.length + 6 ≤ s.params.txCap.toNat
  · rw [sendAck_framed hc, State.framed_txPlen_toNat hc, State.framed_txLen_toNat hc]
    refine ⟨fun _ => rfl, fun _ hm => ?_, fun _ hm => ?_⟩
    · have := hmatch hm
      omega
    · have := hmismatch hm
      omega
  · rw [sendAck_txOverflow (by omega)]
    refine ⟨fun hcap => ?_, fun hok => (nomatch hok), fun hok => (nomatch hok)⟩
    cases hm : s.prs.matched with
    | false =>
      have := hmismatch hm
      omega
    | true =>
      have := hmatch hm
      omega

end Sys2Proof.Machine
end

section
/-! PROOFS. The statements about the parser and the normaliser (42_parser.md): what PARSE reports, that the matcher
answers the matches of the grammar and no others, the timestamp, and NORMALIZE. -/

namespace Sys2Proof.Machine

/-! ### The leftmost match (42_parser.md R84) -/

/-- The first value a search over the offsets below `n` gives is that of the least offset that has one. -/
theorem findSome?_range_eq_some_iff {α : Type} {f : Nat → Option α} {n : Nat} {b : α} :
    (List.range n).findSome? f = some b ↔ ∃ i < n, f i = some b ∧ ∀ j < i, f j = none := by
  induction n with
  | zero => simp
  | succ n ih =>
    rw [List.range_succ, List.findSome?_append, Option.or_eq_some_iff, ih, List.findSome?_eq_none_iff]
    simp only [List.mem_range, List.findSome?_singleton]
    constructor
    · rintro (⟨i, hi, hb, hnone⟩ | ⟨hnone, hb⟩)
      · exact ⟨i, by omega, hb, hnone⟩
      · exact ⟨n, by omega, hb, hnone⟩
    · rintro ⟨i, hi, hb, hnone⟩
      rcases Nat.lt_succ_iff_lt_or_eq.1 hi with hi | rfl
      · exact .inl ⟨i, hi, hb, hnone⟩
      · exact .inr ⟨hnone, hb⟩

/-- Settles O30: the matcher tries the offsets in rising order. -/
theorem matchIsLeftmost : Obligations.MatchIsLeftmost := fun p =>
  ⟨by simp only [grammarMatch, List.findSome?_eq_none_iff, List.mem_range], fun _ => findSome?_range_eq_some_iff⟩

/-! ### Where the parts of a match stand (42_parser.md R84) -/

theorem InClass.len_pos {c : Byte → Bool} {hi : Nat} {p : List Byte} {t : Token}
    (h : InClass c 1 hi (t.bytes p)) : 1 ≤ t.len :=
  h.1.trans (Token.bytes_length_le p t)

section
variable {p : List Byte} {i j : Nat} {t : Token}

theorem matchId_place (h : matchId p i = some (t, j)) : t.off = i + 1 ∧ j = t.off + t.len + 1 := by
  obtain ⟨-, -, -, hc, rfl⟩ := matchId_some h
  have := hc.len_pos
  dsimp only at this ⊢
  omega

theorem matchSeq_place (h : matchSeq p i = some (t, j)) : t.off = i ∧ t.len = 4 ∧ j = t.off + t.len := by
  obtain ⟨rfl, rfl, -⟩ := matchSeq_some h
  exact ⟨rfl, rfl, rfl⟩

theorem matchRcv_place {o : Option Token} (hi : i ≤ p.length) (h : matchRcv p i = some (o, j)) :
    (o = none → j = i) ∧ ∀ r, o = some r → r.off = i + 1 ∧ j = r.off + r.len := by
  obtain ⟨-, -, -, hsome, hnone⟩ := matchRcv_some hi h
  refine ⟨hnone, fun r hr => ?_⟩
  obtain ⟨rfl, hc⟩ := hsome r hr
  have := hc.len_pos
  dsimp only at this ⊢
  omega

theorem matchLine_place (h : matchLine p i = some (t, j)) : t.off = i + 1 ∧ j = t.off + t.len + 1 := by
  obtain ⟨-, -, -, hc, rfl⟩ := matchLine_some h
  have := hc.len_pos
  dsimp only at this ⊢
  omega

theorem matchAcct_place (h : matchAcct p i = some (t, j)) : t.off = i ∧ j = t.off + t.len + 1 := by
  obtain ⟨hlt, -, -, -, rfl⟩ := matchAcct_some h
  dsimp only
  omega

theorem matchMdata_place (h : matchMdata p i = some (t, j)) : t.off = i ∧ j = t.off + t.len + 1 := by
  obtain ⟨hlt, -, -, -, rfl⟩ := matchMdata_some h
  dsimp only
  omega

theorem matchExt_place (hi : i ≤ p.length) : ((matchExt p i).1 = none → (matchExt p i).2 = i) ∧
    ∀ e, (matchExt p i).1 = some e → e.off = i + 1 ∧ (matchExt p i).2 = e.off + e.len + 1 := by
  obtain ⟨-, -, -, hsome, hnone⟩ := matchExt_spec p i hi
  refine ⟨hnone, fun e he => ?_⟩
  obtain ⟨rfl, hc⟩ := hsome e he
  have := hc.len_pos
  dsimp only at this ⊢
  omega

theorem matchTs_place (hi : i ≤ p.length) : ((matchTs p i).1 = none → (matchTs p i).2 = i) ∧
    ∀ t, (matchTs p i).1 = some t →
      t.off = i + 1 ∧ t.off + t.len = p.length ∧ (matchTs p i).2 = p.length := by
  obtain ⟨-, -, -, hsome, hnone⟩ := matchTs_spec p i hi
  refine ⟨hnone, fun t ht => ?_⟩
  obtain ⟨rfl, hpos, hstop⟩ := hsome t ht
  have := hpos.trans (Token.bytes_length_le p _)
  dsimp only at this ⊢
  omega

end

section
variable {p : List Byte} {i : Nat} {m : Match}

/-- The parts of a match follow each other without a gap, so together they are its text. -/
theorem tryMatch_text (h : tryMatch p i = some m) :
    i < m.stop ∧ m.stop ≤ p.length ∧ slice p i m.stop = m.text p := by
  obtain ⟨s, t, t', a, b, c, hid, hseq, hrcv, hline, hacct, hmdata, hext, hts, -, hstop⟩ := tryMatch_some h
  obtain ⟨i_lt, -, id_text, -⟩ := matchId_some hid
  obtain ⟨-, ht, t_le, seq_text, -⟩ := matchSeq_some hseq
  obtain ⟨le_t', -, rcv_text, -⟩ := matchRcv_some t_le hrcv
  obtain ⟨lt_a, -, line_text, -⟩ := matchLine_some hline
  obtain ⟨lt_b, -, acct_text, -⟩ := matchAcct_some hacct
  obtain ⟨lt_c, c_le, mdata_text, -⟩ := matchMdata_some hmdata
  obtain ⟨c_le', c'_le, ext_text, -⟩ := matchExt_spec p c c_le
  obtain ⟨le_stop, stop_le, ts_text, -⟩ := matchTs_spec p _ c'_le
  rw [← hstop] at le_stop stop_le ts_text
  rw [← hext] at ext_text
  rw [← hts] at ts_text
  refine ⟨by omega, stop_le, ?_⟩
  rw [slice_append p i s _ (by omega) (by omega), slice_append p s t _ (by omega) (by omega),
    slice_append p t t' _ (by omega) (by omega), slice_append p t' a _ (by omega) (by omega),
    slice_append p a b _ (by omega) (by omega), slice_append p b c _ (by omega) (by omega),
    slice_append p c _ m.stop c_le' le_stop, id_text, seq_text, rcv_text, line_text, acct_text, mdata_text,
    ext_text, ts_text]
  simp only [Match.text, List.append_assoc]

theorem tryMatch_fieldsOk (h : tryMatch p i = some m) : m.FieldsOk p := by
  obtain ⟨s, t, t', a, b, c, hid, hseq, hrcv, hline, hacct, hmdata, hext, hts, -, hstop⟩ := tryMatch_some h
  obtain ⟨-, -, -, id_class, -⟩ := matchId_some hid
  obtain ⟨-, -, t_le, -, seq_class⟩ := matchSeq_some hseq
  obtain ⟨-, -, -, rcv_class, -⟩ := matchRcv_some t_le hrcv
  obtain ⟨-, -, -, line_class, -⟩ := matchLine_some hline
  obtain ⟨-, -, -, acct_class, -⟩ := matchAcct_some hacct
  obtain ⟨-, c_le, -, mdata_class, -⟩ := matchMdata_some hmdata
  obtain ⟨-, c'_le, -, ext_class, -⟩ := matchExt_spec p c c_le
  obtain ⟨-, -, -, ts_bytes, -⟩ := matchTs_spec p _ c'_le
  exact {
    id := id_class, seq := seq_class, line := line_class, acct := acct_class, mdata := mdata_class
    rcv := fun r hr => (rcv_class r hr).2
    ext := fun e he => (ext_class e (hext ▸ he)).2
    ts := fun u hu => hstop ▸ (ts_bytes u (hts ▸ hu)).2 }

end

/-- Settles O31: what each token's matcher answers, one after the other. -/
theorem matcherSound : Obligations.MatcherSound := by
  intro p i m h
  obtain ⟨i_lt, stop_le, text⟩ := tryMatch_text h
  obtain ⟨s, t, t', a, b, c, hid, hseq, hrcv, hline, hacct, hmdata, hext, hts, hstart, hstop⟩ := tryMatch_some h
  obtain ⟨-, -, t_le, -⟩ := matchSeq_some hseq
  obtain ⟨-, c_le, -⟩ := matchMdata_some hmdata
  obtain ⟨-, c'_le, -⟩ := matchExt_spec p c c_le
  obtain ⟨id_off, rfl⟩ := matchId_place hid
  obtain ⟨seq_off, seq_len, rfl⟩ := matchSeq_place hseq
  obtain ⟨rcv_none, rcv_some⟩ := matchRcv_place t_le hrcv
  obtain ⟨line_off, rfl⟩ := matchLine_place hline
  obtain ⟨acct_off, rfl⟩ := matchAcct_place hacct
  obtain ⟨mdata_off, rfl⟩ := matchMdata_place hmdata
  obtain ⟨ext_none, ext_some⟩ := matchExt_place c_le
  obtain ⟨ts_none, ts_some⟩ := matchTs_place c'_le
  rw [← hext] at ext_none ext_some
  rw [← hts, ← hstop] at ts_none ts_some
  refine ⟨⟨hstart, i_lt, stop_le, text, tryMatch_fieldsOk h⟩, id_off, seq_off, seq_len, fun hn => ?_,
    fun r hr => ?_, acct_off, mdata_off, _, ext_none, ext_some, ts_none, ts_some⟩
  · rw [line_off, rcv_none hn]
  · obtain ⟨off, rfl⟩ := rcv_some r hr
    exact ⟨off, line_off⟩

/-! ### A string that stands at a place of the payload (00_scope.md R9, R10) -/

section
variable {p : List Byte} {i : Nat}

theorem drop_of_drop_append {x r : List Byte} (h : p.drop i = x ++ r) : p.drop (i + x.length) = r := by
  rw [← List.drop_drop, h, List.drop_left]

theorem drop_of_drop_cons {d : Byte} {r : List Byte} (h : p.drop i = d :: r) : p.drop (i + 1) = r :=
  drop_of_drop_append (x := [d]) h

theorem lt_length_of_drop_cons {d : Byte} {r : List Byte} (h : p.drop i = d :: r) : i < p.length :=
  Nat.lt_of_not_le fun hle => by simp [List.drop_eq_nil_of_le hle] at h

theorem isAt_of_drop_cons {d : Byte} {r : List Byte} (h : p.drop i = d :: r) (b : Byte) :
    isAt p i b = (d == b) := by
  rw [isAt, ← List.head?_drop, h]
  rfl

theorem slice_of_drop_append {x r : List Byte} (h : p.drop i = x ++ r) : slice p i (i + x.length) = x := by
  rw [slice, h, Nat.add_sub_cancel_left, List.take_left]

theorem exists_append_drop (hi : i ≤ p.length) : ∃ pre, p = pre ++ p.drop i ∧ pre.length = i :=
  ⟨p.take i, (List.take_append_drop i p).symm, List.length_take_of_le hi⟩

/-- A token of one class before a byte outside it: its run is the token, and the byte ends it. -/
theorem run_of_drop {tok r : List Byte} {d : Byte} {c : Byte → Bool} (h : p.drop i = tok ++ d :: r)
    (hc : ∀ b ∈ tok, c b = true) (hd : c d = false) :
    run p i c = tok.length ∧ slice p i (i + tok.length) = tok ∧ isAt p (i + tok.length) d = true ∧
      p.drop (i + tok.length) = d :: r := by
  have hdrop := drop_of_drop_append h
  refine ⟨?_, slice_of_drop_append h, by simp [isAt_of_drop_cons hdrop], hdrop⟩
  rw [run, h, List.takeWhile_append_of_pos hc, List.takeWhile_cons]
  simp [hd]

end

/-! ### The matcher finds each part where it stands (42_parser.md R84) -/

section
variable {p : List Byte} {i : Nat} {r : List Byte}

theorem matchId_of_drop {id : List Byte} (hc : InClass isNotQuote 1 id.length id)
    (h : p.drop i = 0x22#8 :: (id ++ 0x22#8 :: r)) :
    ∃ t j, matchId p i = some (t, j) ∧ t.bytes p = id ∧ p.drop j = r := by
  obtain ⟨hpos, -, hall⟩ := hc
  obtain ⟨hrun, hbytes, -, hend⟩ := run_of_drop (drop_of_drop_cons h) hall (by decide : isNotQuote 0x22#8 = false)
  have hlt := lt_length_of_drop_cons hend
  refine ⟨⟨i + 1, id.length⟩, i + 1 + id.length + 1, ?_, hbytes, drop_of_drop_cons hend⟩
  simp only [matchId, isAt_of_drop_cons h, hrun]
  rw [if_pos (by decide), if_neg (by omega)]

theorem matchSeq_of_drop {seq : List Byte} (hc : InClass isDigit 4 4 seq) (h : p.drop i = seq ++ r) :
    ∃ t j, matchSeq p i = some (t, j) ∧ t.bytes p = seq ∧ p.drop j = r := by
  obtain ⟨hge, hle, hall⟩ := hc
  have hl : seq.length = 4 := by omega
  have hbytes := slice_of_drop_append h
  have hlen := congrArg List.length h
  simp only [List.length_drop, List.length_append] at hlen
  rw [hl] at hbytes
  refine ⟨⟨i, 4⟩, i + 4, ?_, hbytes, hl ▸ drop_of_drop_append h⟩
  rw [matchSeq, hbytes, if_neg]
  rintro (hshort | hdigit)
  · omega
  · exact hdigit (List.all_eq_true.2 hall)

theorem matchRcv_of_drop {rcv : Option (List Byte)} (hc : ∀ x, rcv = some x → InClass isHex 1 6 x)
    (h : p.drop i = rcvPart rcv ++ 0x4C#8 :: r) :
    ∃ o j, matchRcv p i = some (o, j) ∧ o.map (Token.bytes p) = rcv ∧ p.drop j = 0x4C#8 :: r := by
  cases rcv with
  | none =>
    refine ⟨none, i, ?_, rfl, h⟩
    rw [matchRcv, isAt_of_drop_cons h, if_neg (by decide)]
  | some x =>
    obtain ⟨hpos, hle, hall⟩ := hc x rfl
    obtain ⟨hrun, hbytes, hstop, hend⟩ := run_of_drop (drop_of_drop_cons h) hall (by decide : isHex 0x4C#8 = false)
    refine ⟨some ⟨i + 1, x.length⟩, i + 1 + x.length, ?_, congrArg some hbytes, hend⟩
    simp only [matchRcv, isAt_of_drop_cons h, hrun]
    rw [if_pos (by decide), if_pos ⟨hpos, hle, hstop⟩]

theorem matchLine_of_drop {line : List Byte} (hc : InClass isHex 1 6 line)
    (h : p.drop i = 0x4C#8 :: (line ++ 0x23#8 :: r)) :
    ∃ t j, matchLine p i = some (t, j) ∧ t.bytes p = line ∧ p.drop j = r := by
  obtain ⟨hpos, hle, hall⟩ := hc
  obtain ⟨hrun, hbytes, hstop, hend⟩ := run_of_drop (drop_of_drop_cons h) hall (by decide : isHex 0x23#8 = false)
  refine ⟨⟨i + 1, line.length⟩, i + 1 + line.length + 1, ?_, hbytes, drop_of_drop_cons hend⟩
  simp only [matchLine, isAt_of_drop_cons h, hrun]
  rw [if_pos (by decide), if_pos ⟨hpos, hle, hstop⟩]

theorem matchAcct_of_drop {acct : List Byte} (hc : InClass isWordChar 1 acct.length acct)
    (h : p.drop i = acct ++ 0x5B#8 :: r) :
    ∃ t j, matchAcct p i = some (t, j) ∧ t.bytes p = acct ∧ p.drop j = r := by
  obtain ⟨hpos, -, hall⟩ := hc
  obtain ⟨hrun, hbytes, hstop, hend⟩ := run_of_drop h hall (by decide : isWordChar 0x5B#8 = false)
  refine ⟨⟨i, acct.length⟩, i + acct.length + 1, ?_, hbytes, drop_of_drop_cons hend⟩
  simp only [matchAcct, hrun]
  rw [if_pos ⟨hpos, hstop⟩]

theorem matchMdata_of_drop {mdata : List Byte} (hc : InClass isNotRBracket 1 mdata.length mdata)
    (h : p.drop i = mdata ++ 0x5D#8 :: r) :
    ∃ t j, matchMdata p i = some (t, j) ∧ t.bytes p = mdata ∧ p.drop j = r := by
  obtain ⟨hpos, -, hall⟩ := hc
  obtain ⟨hrun, hbytes, -, hend⟩ := run_of_drop h hall (by decide : isNotRBracket 0x5D#8 = false)
  refine ⟨⟨i, mdata.length⟩, i + mdata.length + 1, ?_, hbytes, drop_of_drop_cons hend⟩
  simp only [matchMdata, hrun]
  rw [if_pos ⟨hpos, lt_length_of_drop_cons hend⟩]

/-- An extension group that stands there is reported; else the match goes on at the same place. -/
theorem matchExt_of_drop {ext : Option (List Byte)} (hi : i ≤ p.length)
    (hc : ∀ e, ext = some e → InClass isNotRBracket 1 e.length e)
    (habsent : ext = none → ∀ e u, InClass isNotRBracket 1 e.length e → r ≠ [0x5B#8] ++ e ++ [0x5D#8] ++ u)
    (h : p.drop i = extPart ext ++ r) :
    (matchExt p i).1.map (Token.bytes p) = ext ∧ p.drop (matchExt p i).2 = r := by
  obtain ⟨pre, hp, hl⟩ := exists_append_drop hi
  cases ext with
  | none =>
    have hext := matchExt_absent pre (p.drop i) (h ▸ habsent rfl)
    rw [← hp, hl] at hext
    rw [hext]
    exact ⟨rfl, h⟩
  | some e =>
    have hext := matchExt_present pre e r (hc e rfl)
    rw [List.append_assoc, ← h, ← hp, hl] at hext
    have hcons : p.drop i = 0x5B#8 :: (e ++ ([0x5D#8] ++ r)) := by simp [h, extPart]
    have htail : p.drop (i + (e.length + 2)) = r := by simpa [extPart] using drop_of_drop_append h
    rw [hext]
    exact ⟨congrArg some (slice_of_drop_append (drop_of_drop_cons hcons)), htail⟩

/-- A timestamp group that stands there is reported, and the match ends before what follows it. -/
theorem matchTs_of_drop {ts : Option (List Byte)} (hi : i ≤ p.length)
    (hts : ∀ t, ts = some t → t ≠ [] ∧ r = []) (habsent : ts = none → ∀ t, t ≠ [] → r ≠ [0x5F#8] ++ t)
    (h : p.drop i = tsPart ts ++ r) :
    (matchTs p i).1.map (Token.bytes p) = ts ∧ (matchTs p i).2 + r.length = p.length := by
  obtain ⟨pre, hp, hl⟩ := exists_append_drop hi
  cases ts with
  | none =>
    have hmatch := matchTs_absent pre (p.drop i) (h ▸ habsent rfl)
    rw [← hp, hl] at hmatch
    have hlen := congrArg List.length h
    rw [List.length_drop] at hlen
    simp only [tsPart, List.nil_append] at hlen
    rw [hmatch]
    refine ⟨rfl, ?_⟩
    dsimp only
    omega
  | some t =>
    obtain ⟨hne, rfl⟩ := hts t rfl
    have hmatch := matchTs_present pre t hne
    rw [List.append_nil] at h
    rw [← h, ← hp, hl] at hmatch
    rw [hmatch]
    have hcons : p.drop i = 0x5F#8 :: (t ++ []) := by simp [h, tsPart]
    exact ⟨congrArg some (slice_of_drop_append (drop_of_drop_cons hcons)), rfl⟩

end

/-- Settles O32: part by part, each matcher finds its part where the one before it ends. -/
theorem matcherComplete : Obligations.MatcherComplete := by
  intro pre id seq line acct mdata rest rcv ext ts hid hseq hrcv hline hacct hmdata hext hnoext hts hnots p hp
  have d0 : p.drop pre.length = 0x22#8 :: (id ++ 0x22#8 :: (seq ++ (rcvPart rcv ++ 0x4C#8 :: (line ++ 0x23#8 ::
      (acct ++ 0x5B#8 :: (mdata ++ 0x5D#8 :: (extPart ext ++ (tsPart ts ++ rest)))))))) := by
    simp [hp]
  obtain ⟨_, _, id_match, id_bytes, d1⟩ := matchId_of_drop hid d0
  obtain ⟨_, _, seq_match, seq_bytes, d2⟩ := matchSeq_of_drop hseq d1
  obtain ⟨_, _, rcv_match, rcv_bytes, d3⟩ := matchRcv_of_drop hrcv d2
  obtain ⟨_, _, line_match, line_bytes, d4⟩ := matchLine_of_drop hline d3
  obtain ⟨_, _, acct_match, acct_bytes, d5⟩ := matchAcct_of_drop hacct d4
  obtain ⟨_, c, mdata_match, mdata_bytes, d6⟩ := matchMdata_of_drop hmdata d5
  obtain ⟨-, c_le, -⟩ := matchMdata_some mdata_match
  obtain ⟨ext_bytes, d7⟩ := matchExt_of_drop c_le hext hnoext d6
  obtain ⟨-, c'_le, -⟩ := matchExt_spec p c c_le
  obtain ⟨ts_bytes, hstop⟩ := matchTs_of_drop c'_le hts hnots d7
  exact ⟨_, tryMatch_of_parts id_match seq_match rcv_match line_match acct_match mdata_match, id_bytes, seq_bytes,
    rcv_bytes, line_bytes, acct_bytes, mdata_bytes, ext_bytes, ts_bytes, hstop⟩

/-! ### The timestamp (42_parser.md R88) -/

theorem eq_map_byteAt (raw : List Byte) : raw = (List.range raw.length).map (byteAt raw) := by
  refine List.ext_getElem (by simp) fun i hi _ => ?_
  simp [byteAt, hi]

theorem tsForm_iff (raw : List Byte) : tsForm raw = true ↔
    raw.length = 19 ∧ (∀ j ∈ tsDigitOffsets, isDigit (byteAt raw j) = true) ∧ byteAt raw 2 = 0x3A#8 ∧
      byteAt raw 5 = 0x3A#8 ∧ byteAt raw 8 = 0x2C#8 ∧ byteAt raw 11 = 0x2D#8 ∧ byteAt raw 14 = 0x2D#8 := by
  simp only [tsForm, Bool.and_eq_true, beq_iff_eq, List.all_eq_true, and_assoc]

theorem tsDecode_eq_some_iff (raw : List Byte) (f : TsFields) : tsDecode raw = some f ↔ tsForm raw = true ∧
    f.hour = dec2 raw 0 ∧ f.minute = dec2 raw 3 ∧ f.second = dec2 raw 6 ∧ f.month = dec2 raw 9 ∧
    f.day = dec2 raw 12 ∧ f.year = 100 * dec2 raw 15 + dec2 raw 17 := by
  cases f
  rw [tsDecode, Option.ite_none_right_eq_some, Option.some_inj, TsFields.mk.injEq]
  simp only [eq_comm]

/-- Settles O33: nineteen bytes are the bytes at the offsets 0 to 18, and the form says what stands at each. -/
theorem timestampForm : Obligations.TimestampForm := by
  intro raw f
  have decimal : ∀ a b c d : Nat, 100 * (10 * a + b) + (10 * c + d) = 1000 * a + 100 * b + 10 * c + d := by omega
  rw [tsDecode_eq_some_iff, tsForm_iff]
  constructor
  · rintro ⟨⟨hl, digits, c2, c5, c8, c11, c14⟩, hour, minute, second, month, day, year⟩
    have hraw : raw = (List.range 19).map (byteAt raw) := hl ▸ eq_map_byteAt raw
    refine ⟨byteAt raw 0, byteAt raw 1, byteAt raw 3, byteAt raw 4, byteAt raw 6, byteAt raw 7, byteAt raw 9,
      byteAt raw 10, byteAt raw 12, byteAt raw 13, byteAt raw 15, byteAt raw 16, byteAt raw 17, byteAt raw 18,
      ?_, (List.forall_mem_map (l := tsDigitOffsets)).2 digits, hour, minute, second, month, day,
      year.trans (decimal _ _ _ _)⟩
    simpa [List.range_succ, c2, c5, c8, c11, c14] using hraw
  · rintro ⟨h1, h0, m1, m0, s1, s0, o1, o0, d1, d0, y3, y2, y1, y0, rfl, digits, hour, minute, second, month, day,
      year⟩
    exact ⟨⟨rfl, fun j hj => digits _ (List.mem_map_of_mem (f := byteAt _) hj), rfl, rfl, rfl, rfl, rfl⟩, hour,
      minute, second, month, day, year.trans (decimal _ _ _ _).symm⟩

/-! ### PARSE (42_parser.md R83) -/

section
variable {s : State}

theorem exec_parse_noFrame (hd : s.dec.frameOk = false) :
    exec .parse s = .next (s.clearParse.finish .noFrame) := by
  simp [exec, execParse, hd]

theorem exec_parse_payload {p : List Byte} (hd : s.dec.frameOk = true) (hr : s.payload = .ok p) :
    exec .parse s = .next (State.finish { s with prs := parsePayload p } (parseCode p)) := by
  simp [exec, execParse, hd, hr]

theorem exec_parse_mismatch {p : List Byte} (hd : s.dec.frameOk = true) (hr : s.payload = .ok p)
    (hm : grammarMatch p = none) : exec .parse s =
      .next (State.finish { s with prs := { ParseRegs.cleared with parsed := true } } .grammarMismatch) := by
  rw [exec_parse_payload hd hr, parsePayload, parseCode, hm]

theorem exec_parse_match {p : List Byte} {m : Match} (hd : s.dec.frameOk = true) (hr : s.payload = .ok p)
    (hm : grammarMatch p = some m) : exec .parse s = .next (State.finish { s with prs := m.regs p } .ok) := by
  rw [exec_parse_payload hd hr, parsePayload, parseCode, hm]

end

/-- PRESENT by its bits: those of the required groups, and one for each optional group (10_state.md R26). -/
theorem presentBits_eq_or : ∀ rcv ext ts : Bool, presentBits rcv ext ts =
    0x3B#8 ||| (if rcv then 0x04#8 else 0#8) ||| (if ext then 0x40#8 else 0#8) ||| (if ts then 0x80#8 else 0#8) := by
  decide

theorem Match.tsFields_eq_bind (p : List Byte) (m : Match) :
    m.tsFields p = m.ts.bind fun t => tsDecode (t.bytes p) := by
  unfold Match.tsFields
  cases m.ts <;> rfl

/-- Settles O29: the three ends of PARSE, the registers of a match being those the statement writes out. -/
theorem parseResult : Obligations.ParseResult := by
  refine ⟨issuedBy_decodeOp 0x20#8, fun s => ⟨exec_parse_noFrame, fun hd p hr => ⟨exec_parse_mismatch hd hr,
    fun m hm => ?_⟩⟩⟩
  rw [exec_parse_match hd hr hm, Match.regs, Match.tsFields_eq_bind, presentBits_eq_or]
  cases m.ts.bind fun t => tsDecode (t.bytes p) with
  | none => rfl
  | some f => rfl

/-! ### Acknowledging what PARSE reports (42_parser.md R83, 41_frame_codec.md R80) -/

/-- The frame of the acknowledgment of no fields. -/
theorem outboundFrame_ackPayload_nil : outboundFrame (ackPayload [] [] [] []) =
    [0x0A#8, 0xB6#8, 0xDD#8, 0x00#8, 0x09#8, 0x22#8, 0x41#8, 0x43#8, 0x4B#8, 0x22#8, 0x4C#8, 0x23#8, 0x5B#8,
      0x5D#8, 0x0D#8] := by
  decide

/-- Settles O34: a mismatch clears every field, so the acknowledgment is that of no fields. -/
theorem mismatchIsAcknowledged : Obligations.MismatchIsAcknowledged := by
  intro s p fits hd hr hm
  refine ⟨_, _, exec_parse_mismatch hd hr hm, rfl,
    exec_buildAck_sendAck hd rfl (State.ackFields_of_mismatch rfl), ?_⟩
  rw [sendAck_framed]
  · refine ⟨rfl, rfl, ?_⟩
    rw [← outboundFrame_ackPayload_nil]
    exact State.framed_txs _ (Memory.readBytes_writeBytes .tx s.txbuf 5 _)
  · exact fits

/-- The payload of a fresh frame lies inside the chunk, whose bytes are all written. -/
theorem State.DecodeFresh.payload {s : State} (h : s.DecodeFresh) (hd : s.dec.frameOk = true) :
    ∃ p, s.payload = .ok p := by
  obtain ⟨-, f, hr, -⟩ := h.2 hd
  obtain ⟨-, hlen⟩ := h.rxLen hd
  exact ⟨_, Memory.readBytes_sub hr 7 s.dec.comp.len.toNat (by omega)⟩

/-- Settles O58: a fresh frame's payload is written, and so are the fields that a fresh parse reports. -/
theorem parseAndAckNeverFault : Obligations.ParseAndAckNeverFault := by
  intro s hs
  cases hd : s.dec.frameOk with
  | false => exact ⟨⟨_, exec_parse_noFrame hd⟩, _, exec_buildAck_noFrame hd⟩
  | true =>
    obtain ⟨p, hr⟩ := hs.1.payload hd
    refine ⟨⟨_, exec_parse_payload hd hr⟩, ?_⟩
    cases hp : s.prs.parsed with
    | false => exact ⟨_, exec_buildAck_notParsed hd hp⟩
    | true =>
      obtain ⟨seq, rcv, line, acct, fields, -⟩ := hs.ackFields hd hp
      exact ⟨_, exec_buildAck_sendAck hd hp fields⟩

/-! ### The normalised form (42_parser.md R90) -/

/-- What follows a copied byte is normalised as from a fresh start. -/
theorem normFrom_append_of_copied (u w : List Byte) {b : Byte} (hb : isSep b = false) (inRun : Bool) :
    normFrom inRun (u ++ b :: w) = normFrom inRun (u ++ [b]) ++ normFrom false w := by
  induction u generalizing inRun with
  | nil => simp [normFrom, hb]
  | cons x u ih =>
    simp only [List.cons_append, normFrom, ih]
    split
    · split <;> rfl
    · rfl

theorem normBytes_append {u w : List Byte} (hu : ∀ b, u.getLast? = some b → isSep b = false) :
    normBytes (u ++ w) = normBytes u ++ normBytes w := by
  rcases u.eq_nil_or_concat' with rfl | ⟨u, b, rfl⟩
  · rfl
  · rw [List.append_assoc]
    exact normFrom_append_of_copied u w (hu b (by simp)) false

/-- Inside a run every separator is dropped. -/
theorem normFrom_true_append {r : List Byte} (v : List Byte) (hr : ∀ b ∈ r, isSep b = true) :
    normFrom true (r ++ v) = normFrom true v := by
  induction r with
  | nil => rfl
  | cons b r ih =>
    have hb := hr b (by simp)
    simp [normFrom, hb, ih fun x hx => hr x (by simp [hx])]

/-- A whole run of separators becomes one underscore. -/
theorem normBytes_run_append {r v : List Byte} (hne : r ≠ []) (hr : ∀ b ∈ r, isSep b = true)
    (hv : ∀ b, v.head? = some b → isSep b = false) : normBytes (r ++ v) = 0x5F#8 :: normBytes v := by
  cases r with
  | nil => exact absurd rfl hne
  | cons b r =>
    have hb := hr b (by simp)
    have htail := normFrom_true_append (r := r) v fun x hx => hr x (by simp [hx])
    simp [normBytes, normFrom, hb, htail, normFrom_true_of_head hv]

theorem normBytes_of_noSep {s : List Byte} (h : ∀ b ∈ s, isSep b = false) : normBytes s = s := by
  by_cases hne : s = []
  · rw [hne]
    rfl
  · simpa only [normBytes, normFrom, List.append_nil] using normFrom_append_copy s [] false h hne

/-- Settles O36: the string before the run, the run and the string after it are normalised each for itself. -/
theorem normForm : Obligations.NormForm := by
  refine ⟨fun u r v hne hr hu hv => ?_, fun s => normBytes_of_noSep, fun s => ?_⟩
  · rw [List.append_assoc, normBytes_append hu, normBytes_run_append hne hr hv, List.append_assoc]
    rfl
  · have hsep := normFrom_noSep false s
    exact ⟨normBytes_length s, hsep, normBytes_of_noSep hsep⟩

/-- No byte of class WORD is a separator (30_encoding.md R61). -/
theorem isSep_eq_false_of_isWordChar {b : Byte} (h : isWordChar b = true) : isSep b = false := by
  rw [isWordChar_iff] at h
  rw [← Bool.not_eq_true, isSep_iff]
  simp only [List.mem_cons, List.not_mem_nil, or_false]
  omega

/-- Settles O37: an account is a string of class WORD. -/
theorem parsedAccountIsNormal : Obligations.ParsedAccountIsNormal := by
  intro p m h
  obtain ⟨i, hi⟩ := grammarMatch_some h
  obtain ⟨-, -, acct_word⟩ := (tryMatch_fieldsOk hi).acct
  exact normBytes_of_noSep fun b hb => isSep_eq_false_of_isWordChar (acct_word b hb)

/-! ### NORMALIZE (42_parser.md R91) -/

/-- The state after a NORMALIZE that completes: the normalised form of the bytes `bs` stands in NORMBUF. -/
def State.normalized (s : State) (bs : List Byte) : State :=
  State.finish { s with
    normbuf := s.normbuf.writeBytes 0 (normBytes bs)
    normLen := BitVec.ofNat 16 (normBytes bs).length } .ok

theorem State.normalized_normbuf_read_past (s : State) {bs : List Byte} {j : Nat}
    (hj : (normBytes bs).length ≤ j) : (s.normalized bs).normbuf.read j = s.normbuf.read j := by
  show (s.normbuf.writeBytes 0 (normBytes bs)).read j = _
  rw [Memory.read_writeBytes, if_neg (by omega)]

/-- Settles O35, end by end of the span operand. -/
theorem normalizeResult : Obligations.NormalizeResult := by
  refine ⟨issuedBy_decodeOp 0x21#8, fun s => ⟨withSpanOperand_rxOverflow _, withSpanOperand_spanRange _,
    fun fits inside => ⟨fun bs hr => ⟨s.normalized bs, withSpanOperand_bytes _ fits inside hr, rfl, ?_, ?_, ?_⟩,
      fun _ => withSpanOperand_unwritten _ fits inside⟩⟩⟩
  · exact toNat_ofNat_of_le_cap (normBytes_length_le_rxCap fits inside hr)
  · exact Memory.readBytes_writeBytes .nb s.normbuf 0 (normBytes bs)
  · exact fun j => s.normalized_normbuf_read_past

/-- NORMALIZE ends in a result code other than OK with no other effect, or writes the normalised form of its span. -/
theorem exec_normalize_next {s t : State} (h : exec .normalize s = .next t) :
    (∃ c, c ≠ .ok ∧ t = s.finish c) ∨ ∃ bs, s.rxSpan s.span = .ok bs ∧ t = s.normalized bs := by
  rcases withSpanOperand_next h with rfl | rfl | ⟨-, -, bs, hr, hk⟩
  · exact .inl ⟨.rxOverflow, by decide, rfl⟩
  · exact .inl ⟨.spanRange, by decide, rfl⟩
  · cases hk
    exact .inr ⟨bs, hr, rfl⟩

/-- Settles O49: NORMALIZE changes NORMBUF by the bytes it writes alone. -/
theorem frameNormalize : Obligations.FrameNormalize := by
  intro s t h
  rcases exec_normalize_next h with ⟨c, hc, rfl⟩ | ⟨bs, hr, rfl⟩
  · exact ⟨rfl, fun hok => absurd hok hc, fun _ => ⟨rfl, fun _ => rfl⟩⟩
  · refine ⟨rfl, fun _ => ⟨bs, hr, fun a ha => byteAtOffset_congr s (s.normalized bs) rfl a fun b i hi => ?_⟩,
      fun hne => absurd rfl hne⟩
    cases b with
    | rx => rfl
    | tx => rfl
    | nb =>
      simp only [windowBase] at hi
      exact s.normalized_normbuf_read_past (by omega)

end Sys2Proof.Machine
end

section
/-! PROOFS. The statements about control (43_control.md): issuing a command, the engine's turn, NOP, SRST and the illegal
opcodes, and what the commands that store no byte leave unchanged. -/

namespace Sys2Proof.Machine

/-! ### Issue (43_control.md R93) -/

/-- Settles O6: a CMD write is a register write where the engine is idle, and the hazard of every OP where it is not. -/
theorem cmdWriteIssues : Obligations.CmdWriteIssues := fun s d rest h =>
  ⟨fun he => step_write_register (r := .cmd) he h rfl rfl (by decide),
    fun op he => (issuedBy_decodeOp (lowByte d)).hazard s d op rest rfl he h⟩

/-! ### The engine's turn (43_control.md R94, R95) -/

/-- The turn is the engine's with no input left as well as at its own place in the order (assumption 4). -/
theorem nextTurn_of_engine {s : State} (h : s.inputs = [] ∨ ∃ rest, s.inputs = .engine :: rest) :
    nextTurn s = engineTurn s.popInput := by
  rcases h with h | ⟨rest, h⟩
  · rw [popInput_of_nil h, nextTurn, h]
  · rw [nextTurn, h]

/-- Settles O4. -/
theorem stepRunsPendingCommand : Obligations.StepRunsPendingCommand := by
  intro s op he hin
  have hturn : engineTurn s.popInput = .command (decodeOp op) s.popInput := by
    rw [engineTurn, State.popInput_eng, he]
  rw [step, nextTurn_of_engine hin, hturn]

/-- What R95 asks of an outcome: a next state, or the fault of a byte that holds no value. -/
def Completes (o : Outcome) : Prop := (∃ t, o = .next t) ∨ ∃ buf i, o = .fault (.uninitRead buf i)

theorem completes_next (t : State) : Completes (.next t) := .inl ⟨t, rfl⟩

/-- Reading a byte string raises no fault but UNINIT_READ. -/
theorem completes_withBytes {buf : Buffer} {m : Memory} {off n : Nat} {k : List Byte → Outcome}
    (hk : ∀ bs, Completes (k bs)) : Completes (withBytes (Memory.readBytes buf m off n) k) := by
  cases hr : Memory.readBytes buf m off n with
  | ok bs => exact hk bs
  | error f =>
    obtain ⟨i, -, -, -, rfl⟩ := (Memory.readBytes_error_iff buf m off n f).1 hr
    exact .inr ⟨buf, off + i, rfl⟩

theorem completes_withSpanOperand {s : State} {k : List Byte → Outcome} (hk : ∀ bs, Completes (k bs)) :
    Completes (withSpanOperand s k) := by
  unfold withSpanOperand
  split
  · exact completes_next _
  · split
    · exact completes_next _
    · exact completes_withBytes hk

theorem execDecode_completes (s : State) : Completes (execDecode s) := by
  unfold execDecode
  split
  · exact completes_next _
  · refine completes_withBytes fun f => ?_
    cases decodeFrame f with
    | error c => exact completes_next _
    | ok regs => exact completes_next _

theorem execEncode_completes (s : State) : Completes (execEncode s) := by
  unfold execEncode
  split
  · exact completes_next _
  · exact completes_withBytes fun _ => completes_next _

theorem execBuildAck_completes (s : State) : Completes (execBuildAck s) := by
  unfold execBuildAck
  split
  · exact completes_next _
  · split
    · exact completes_next _
    · exact completes_withBytes fun _ => completes_withBytes fun _ => completes_withBytes fun _ =>
        completes_withBytes fun _ => completes_next _

theorem execParse_completes (s : State) : Completes (execParse s) := by
  unfold execParse
  split
  · exact completes_next _
  · exact completes_withBytes fun _ => completes_next _

/-- A command that has an OP completes; CRC_BYTE, which has none, can meet HAZARD_BUSY (40_crc.md R72). -/
theorem exec_completes {i : Instr} {op : Byte} (ho : opOf i = some op) (s : State) : Completes (exec i s) := by
  cases i with
  | nop | crcInit | srst | illegal op => exact completes_next _
  | crcRx | normalize => exact completes_withSpanOperand fun _ => completes_next _
  | decode => exact execDecode_completes s
  | encode => exact execEncode_completes s
  | buildAck => exact execBuildAck_completes s
  | parse => exact execParse_completes s
  | crcByte b => cases ho

/-- Settles O8: the pending command has an OP, and a command that answers a next state leaves the engine idle. -/
theorem pendingCommandCompletes : Obligations.PendingCommandCompletes := by
  intro s op he hin
  rw [stepRunsPendingCommand s op he hin]
  exact (exec_completes (decodeOp_spec op).2 s.popInput).imp_left fun ⟨t, h⟩ => ⟨t, h, (exec_next h).eng_idle⟩

/-! ### NOP, SRST and the illegal opcodes (43_control.md R96 to R98) -/

/-- Settles O10. -/
theorem nopResult : Obligations.NopResult := ⟨issuedBy_decodeOp 0x00#8, fun _ => rfl⟩

/-- Settles O11: an OP outside the opcode map decodes to its illegal command. -/
theorem illegalResult : Obligations.IllegalResult := fun op _ =>
  ⟨fun h => decodeOp_of_notMem_opcodeMap h ▸ issuedBy_decodeOp op, rfl, rfl⟩

/-- Settles O12: `reset_state()` takes the reset values that the statement writes out. -/
theorem srstResult : Obligations.SrstResult := ⟨issuedBy_decodeOp 0xFF#8, fun _ => rfl⟩

/-! ### What the commands that store no byte leave unchanged -/

section
variable {s t : State}

/-- CRC_RX finishes, and sets no register but ACC. -/
theorem exec_crcRx_next (h : exec .crcRx s = .next t) : ∃ a c, t = State.finish { s with acc := a } c := by
  rcases withSpanOperand_next h with rfl | rfl | ⟨-, -, bs, -, hk⟩
  · exact ⟨s.acc, .rxOverflow, rfl⟩
  · exact ⟨s.acc, .spanRange, rfl⟩
  · cases hk
    exact ⟨_, .ok, rfl⟩

/-- A CRC_BYTE that does not fault advances ACC. -/
theorem exec_crcByte_next {b : Byte} (h : exec (.crcByte b) s = .next t) :
    t = { s with acc := crcStep s.acc b } := by
  rw [exec, execCrcByte] at h
  split at h
  · cases h
  · cases h
    rfl

/-- DECODE finishes, whatever it finds, with the parse results cleared and the decode results set. -/
theorem exec_decode_next (h : exec .decode s = .next t) :
    ∃ regs c, t = State.finish { s.clearParse with dec := regs } c := by
  by_cases hc : s.params.rxCap.toNat < s.rxLen.toNat
  · rw [exec_decode_rxOverflow hc] at h
    cases h
    exact ⟨DecodeRegs.cleared, .rxOverflow, rfl⟩
  · rw [exec, execDecode, if_neg hc] at h
    obtain ⟨f, -, hk⟩ := withBytes_next h
    cases hd : decodeFrame f with
    | error c =>
      rw [hd] at hk
      cases hk
      exact ⟨DecodeRegs.cleared, c, rfl⟩
    | ok regs =>
      rw [hd] at hk
      cases hk
      exact ⟨regs, .ok, rfl⟩

/-- PARSE finishes, and sets the parse results alone. -/
theorem exec_parse_next (h : exec .parse s = .next t) : ∃ regs c, t = State.finish { s with prs := regs } c := by
  cases hd : s.dec.frameOk with
  | false =>
    rw [exec_parse_noFrame hd] at h
    cases h
    exact ⟨ParseRegs.cleared, .noFrame, rfl⟩
  | true =>
    rw [exec, execParse, hd] at h
    obtain ⟨p, -, hk⟩ := withBytes_next h
    cases hk
    exact ⟨parsePayload p, parseCode p, rfl⟩

end

/-- Settles O46: the next state of each command has the buffers it began with. -/
theorem frameNonStoring : Obligations.FrameNonStoring := by
  refine fun s t => ⟨fun i hi h => ?_, fun i hi h => ?_, fun b h => ?_, fun h => ?_, fun h => ?_⟩
  · rcases hi with rfl | ⟨op, rfl⟩
    all_goals
      cases h
      exact ⟨rfl, fun _ => rfl⟩
  · rcases hi with rfl | rfl
    · cases h
      exact ⟨rfl, fun _ => rfl⟩
    · obtain ⟨a, c, rfl⟩ := exec_crcRx_next h
      exact ⟨rfl, fun _ => rfl⟩
  · obtain rfl := exec_crcByte_next h
    exact ⟨rfl, fun _ => rfl⟩
  · obtain ⟨regs, c, rfl⟩ := exec_decode_next h
    exact ⟨rfl, fun _ => rfl⟩
  · obtain ⟨regs, c, rfl⟩ := exec_parse_next h
    exact ⟨rfl, fun _ => rfl⟩

end Sys2Proof.Machine
end

section
/-! PROOFS. The statements about reset and hazards (70_reset_and_hazards.md): what every host access does while a command
is pending, the reset state, and the hard reset. -/

namespace Sys2Proof.Machine

/-! ### Host accesses while a command is pending (R114) -/

/-- No register has two offsets (10_state.md R15). -/
theorem regAt_inj {a b : Nat} {r : Reg} (ha : regAt a = some r) (hb : regAt b = some r) : a = b := by
  obtain ⟨ha4, ha⟩ := Option.ite_none_right_eq_some.1 ha
  obtain ⟨hb4, hb⟩ := Option.ite_none_right_eq_some.1 hb
  have hlt := (List.getElem?_eq_some_iff.1 ha).1
  have hi : a / 4 = b / 4 := (List.getElem?_inj hlt (by decide)).1 (ha.trans hb.symm)
  omega

/-- A poll leaves the block as it is, whatever the host's side of the bus holds (20_memory.md R46). -/
theorem step_read_status {s : State} {rest : List Input} (h : s.inputs = s.poll :: rest) :
    step s = .next { s with inputs := rest, lastRead := some (.word s.statusWord) } := by
  have hs : s.withHost (s.poll :: rest) s.lastRead = s := by rw [State.withHost, ← h]
  exact hs ▸ step_poll s rest s.lastRead

section
variable {s : State} {op : Byte} {a w : Nat} {t : Target} {rest : List Input} (he : s.eng = .busy op)
include he

theorem readTarget_busy (ht : t ≠ .reg .status) : readTarget a t s = .fault (.hazardBusy a .read) := by
  simp [readTarget, hazard, State.busy, he, Eng.isBusy, ht]

/-- A read the bus accepts faults, but at the offset of STATUS. -/
theorem step_read_busy (h : s.inputs = .read (s.params.base + a) w :: rest)
    (hb : busTarget s.params a w .read = .ok t) (ha : a ≠ 0x004) : step s = .fault (.hazardBusy a .read) := by
  have ht : t ≠ .reg .status := by
    rintro rfl
    obtain ⟨-, -, hr⟩ := busTarget_reg_inv hb
    exact ha (regAt_inj hr rfl)
  have he' : s.popInput.eng = .busy op := he
  rw [step_read h hb, readTarget_busy he' ht]

/-- A write the bus accepts faults: one to CRC_DIN as the command CRC_BYTE, every other one at the bus. -/
theorem step_write_busy {d : Word} (h : s.inputs = .write (s.params.base + a) w d :: rest)
    (hb : busTarget s.params a w .write = .ok t) : step s = .fault (.hazardBusy a .write) := by
  have he' : s.popInput.eng = .busy op := he
  by_cases ht : t = .reg .crcDin
  · subst ht
    obtain ⟨-, -, hr⟩ := busTarget_reg_inv hb
    obtain rfl : a = 0x00C := regAt_inj hr rfl
    rw [step_write_crcDin h hb, exec_crcByte_busy _ he']
  · rw [step_write h hb ht, writeTarget_busy he']

end

/-- Settles O44: a STATUS read is a poll, every other access the bus accepts meets the hazard, and a bus error comes
before it. -/
theorem busyHazard : Obligations.BusyHazard := fun _ _ _ _ _ _ he =>
  ⟨step_read_status,
    fun _ hb ha h => step_read_busy he h hb ha,
    fun _ hb h => step_write_busy he h hb,
    fun _ hb h => step_read_error h hb,
    fun _ hb h => step_write_error h hb⟩

/-! ### The reset state (R111) -/

@[simp] theorem resetWith_buffer (p : Params) (b : Buffer) : (State.resetWith p).buffer b = [] := by
  cases b <;> rfl

/-- No byte of the address space is written in the reset state. -/
theorem resetWith_byteAtOffset (p : Params) (a : Nat) : (State.resetWith p).byteAtOffset a = none := by
  unfold State.byteAtOffset
  split
  · rw [resetWith_buffer, Memory.read]
  · rfl
  · rfl

/-- The reset values of the registers but CAPS, by evaluation of each at the default parameters. -/
theorem reset_readReg {r : Reg} (hr : r ≠ .caps) : State.reset.readReg r = 0#32 := by
  cases r with
  | caps => exact absurd rfl hr
  | _ => decide

/-- CAPS alone shows the parameters, so the other registers read what they do at the default ones. -/
theorem resetWith_readReg (p : Params) {r : Reg} (hr : r ≠ .caps) : (State.resetWith p).readReg r = 0#32 := by
  cases r with
  | caps => exact absurd rfl hr
  | _ => exact reset_readReg hr

/-- Settles O13. -/
theorem resetReads : Obligations.ResetReads := fun p =>
  ⟨fun _ => resetWith_readReg p, rfl, rfl, resetWith_byteAtOffset p⟩

/-- Settles O56: the buffers are empty, no command is pending, the results are cleared, and both lengths are 0. -/
theorem resetMeetsInvariants : Obligations.ResetMeetsInvariants := by
  intro p
  have hfit : (State.resetWith p).BuffersFit := ⟨Memory.fits_nil _, Memory.fits_nil _, Memory.fits_nil _⟩
  have hnorm : (State.resetWith p).NormFresh := ⟨Nat.zero_le _, [], rfl, by simp⟩
  exact ⟨(State.buffersWf_iff_buffersFit _).2 hfit, State.pendingOk_of_idle rfl, State.fresh_of_cleared rfl rfl,
    .inl rfl, hnorm⟩

/-! ### The hard reset (R110, R112) -/

/-- The platform's reset does not look at ENG: a pending command has no part in it. -/
theorem step_hardReset {s : State} {rest : List Input} (h : s.inputs = .hardReset :: rest) :
    step s = .next s.popInput.resetState := by
  rw [step, nextTurn, h]

/-- Settles O14. -/
theorem hardResetAborts : Obligations.HardResetAborts := fun s _ h =>
  ⟨by rw [step_hardReset h, popInput_cons h]; rfl, resetWith_readReg s.params (r := .status) (by decide)⟩

end Sys2Proof.Machine
end

section
/-! PROOFS. The engine's turn with no command pending (20_memory.md section 4), where the model chooses
(assumptions 4 and 5). -/

namespace Sys2Proof.Machine

/-- An idle engine has no step of its own: its turn leaves the state as it is. -/
theorem engineTurn_idle {s : State} (he : s.eng = .idle) : engineTurn s = .other (.next s) := by
  rw [engineTurn, he]

/-- Settles O7: in both forms the turn is the engine's, and taking the input off the order leaves ENG idle. -/
theorem engineWithoutCommandWaits : Obligations.EngineWithoutCommandWaits := by
  intro s he hin
  have hpop : s.popInput.eng = .idle := he
  rw [step, nextTurn_of_engine hin, engineTurn_idle hpop]

end Sys2Proof.Machine
end
